-- ==== Sys2Proof/Word.lean ====
section
/-! DEFINITION. Words, addresses and the two integer divisions (spec/00_scope.md R7, R8).

The machine has no bits and no fixed width (R7): a cell's value is the same thing as an instruction word, and it, a
card and the accumulator are signed integers (R7, R26, R55, R134), so the word type is `Int` itself; a decoded address and
the program counter are naturals (R20, R25), so they are `Nat`. -/

namespace Sys2Proof

/-- The quotient rounded toward zero (R8). -/
abbrev tdiv (a b : Int) : Int := Int.tdiv a b

/-- The remainder that goes with `tdiv`: zero, or of the sign of `a` (R8). -/
abbrev tmod (a b : Int) : Int := Int.tmod a b

/-- Decimal digit `k` of the magnitude of `v`, digit 0 the least significant (R7). -/
def digit (k : Nat) (v : Int) : Nat := v.natAbs / 10 ^ k % 10

end Sys2Proof
end

