-- ==== Sys2Proof/Config.lean ====
section
/-! DEFINITION. The shape of the one configuration record (spec/00_scope.md R6, spec/93_implementation_defined.md section 2).

R6 asks a model to keep the document's literals in one record, "so that an audit can change one place". The record's
VALUES are `config`, in Machine/Params.lean. The spec leaves no value open, so there is no opaque free value here. -/

namespace Sys2Proof

/-- The two conventions for the remainder and quotient of a negative number (93, U5). -/
inductive SignConvention where
  | truncating
  | flooring
  deriving DecidableEq, Repr

/-- The named constants of R6, and the three parameters of spec/93 section 2. -/
structure Config where
  /-- MEM_SIZE: the number of cells. -/
  memSize : Nat
  /-- CELL_MIN. -/
  cellMin : Int
  /-- CELL_MAX. -/
  cellMax : Int
  /-- OP_DIV: separates the opcode digit from the address. -/
  opDiv : Nat
  /-- N_OPCODES: the number of handlers. -/
  nOpcodes : Nat
  /-- SFT_DIV: separates SFT's two counts, and is the radix of its shifts. -/
  sftDiv : Nat
  /-- ACC_WINDOW: SFT keeps the value modulo this. -/
  accWindow : Nat
  /-- STORE_MOD: STO keeps the value modulo this. -/
  storeMod : Nat
  /-- RET_SLOT: the cell a jump records its return instruction in. -/
  retSlot : Nat
  /-- RET_BASE: added to the advanced target to form the return instruction. -/
  retBase : Int
  /-- NO_RET: the jump destination for which nothing is recorded. -/
  noRet : Nat
  /-- GUARD_ADDR: the address INP does not write. -/
  guardAddr : Nat
  /-- EMPTY_CARD: what INP stores when the input deck is empty. -/
  emptyCard : Int
  /-- INIT_CELL0: the power-on value of cell 0. -/
  initCell0 : Int
  /-- INIT_CELL99: the power-on value of the return slot. -/
  initCell99 : Int
  /-- CARD_MIN. -/
  cardMin : Int
  /-- CARD_MAX. -/
  cardMax : Int
  /-- SFT_SIGN_CONVENTION (93, U5; log 6). -/
  sftSign : SignConvention
  /-- INP0_CONSUMES (93, U6; log 7). -/
  inp0Consumes : Bool
  /-- TAC_RECORDS_RETURN (93, U7; log 8). -/
  tacRecordsReturn : Bool
  deriving DecidableEq, Repr

end Sys2Proof
end

