-- ==== Sys2Proof/Machine/Params.lean ====
section
/-! DEFINITION. The values of the configuration record (spec/00_scope.md R6; spec/93_implementation_defined.md
section 2), and what they give directly: the power-on cells and the legal ranges. -/

namespace Sys2Proof

/-- R6's table row by row, then the three parameters with the values spec/93 section 2 fixes for them.
UNVERIFIED (log 13): R6 says that the literals were transcribed without an audit against a run. -/
def config : Config where
  memSize := 100
  cellMin := -999
  cellMax := 999
  opDiv := 100
  nOpcodes := 10
  sftDiv := 10
  accWindow := 10000
  storeMod := 1000
  retSlot := 99
  retBase := 800
  noRet := 100
  guardAddr := 0
  emptyCard := 0
  initCell0 := 1
  initCell99 := 800
  cardMin := -999
  cardMax := 999
  sftSign := .truncating
  inp0Consumes := true
  tacRecordsReturn := true

/-- The power-on value of each cell (R31): what an unlisted address of the memory list reads as (log 2). -/
def blankCell (a : Nat) : Int :=
  if a = 0 then config.initCell0 else if a = config.retSlot then config.initCell99 else 0

/-- A value a cell may hold (R22). -/
def cellInRange (v : Int) : Bool := decide (config.cellMin ≤ v) && decide (v ≤ config.cellMax)

/-- A card INP accepts (R110). -/
def cardInRange (v : Int) : Bool := decide (config.cardMin ≤ v) && decide (v ≤ config.cardMax)

/-- An integer that names a cell (R52). -/
def addrInRange (a : Int) : Bool := decide (0 ≤ a) && decide (a < config.memSize)

end Sys2Proof
end

