-- ==== Sys2Proof/Syntax.lean ====
section
/-! DEFINITION. The ten instructions (spec/30_encoding.md R76, spec/opcode_table.json), one constructor per row, in the
order of the opcode digit. The operand is the address field as a natural (R73); SFT's field is its two digit counts
(R74). Which operands a decoded instruction can have is said in WellFormed.lean. -/

namespace Sys2Proof

inductive Instr where
  /-- `0aa`, input (R110). -/
  | inp (a : Nat)
  /-- `1aa`, clear and add (R120). -/
  | cla (a : Nat)
  /-- `2aa` (R130). -/
  | add (a : Nat)
  /-- `3aa`, test accumulator, conditional jump (R150). -/
  | tac (a : Nat)
  /-- `4lr`, digit shift (R131). -/
  | sft (l r : Nat)
  /-- `5aa`, output (R111). -/
  | out (a : Nat)
  /-- `6aa`, store (R121). -/
  | sto (a : Nat)
  /-- `7aa`, subtract (R132). -/
  | sub (a : Nat)
  /-- `8aa`, jump with return recording (R152). -/
  | jmp (a : Nat)
  /-- `9aa`, halt and reset target (R153). -/
  | hrs (a : Nat)
  deriving DecidableEq, Repr

end Sys2Proof
end

