-- ==== Sys2Proof/WellFormed.lean ====
section
/-! DEFINITION. Which instructions a word can spell: every address field is a cell index, and SFT's two counts are
single digits (spec/30_encoding.md R70, R72, R74). -/

namespace Sys2Proof

/-- An address field lies in 0..99 (R72). -/
def addressOk (a : Nat) : Bool := decide (a < config.memSize)

/-- A shift count is one decimal digit (R74). -/
def digitOk (n : Nat) : Bool := decide (n < config.sftDiv)

/-- The instruction is one that some word of 0..999 spells (R72, R75). -/
def Instr.wellFormed (i : Instr) : Bool :=
  match i with
  | .inp a => addressOk a
  | .cla a => addressOk a
  | .add a => addressOk a
  | .tac a => addressOk a
  | .sft l r => digitOk l && digitOk r
  | .out a => addressOk a
  | .sto a => addressOk a
  | .sub a => addressOk a
  | .jmp a => addressOk a
  | .hrs a => addressOk a

end Sys2Proof
end

