-- ==== Sys2Proof/Decode.lean ====
section
/-! DEFINITION. Decode and encode (spec/30_encoding.md R70 to R78). Decode is total on the integers and rejects by name;
the encoder stands after it. -/

namespace Sys2Proof

/-- Why a fetched word is no instruction. -/
inductive DecodeError where
  /-- The quotient by 100 has no handler (R77, R95); carries the word. -/
  | undecodedOpcode (w : Int)
  /-- The remainder by 100 is negative (R77, R93); carries that address. -/
  | negativeAddress (a : Int)
  deriving DecidableEq, Repr

/-- The opcode of a word (R71). -/
def opcodeOf (w : Int) : Int := tdiv w config.opDiv

/-- The address of a word (R71; the truncating remainder is the spec's decision D4, log 5). -/
def addressOf (w : Int) : Int := tmod w config.opDiv

/-- SFT's left count: the more significant digit of the address field (R74). -/
def leftCount (a : Nat) : Nat := a / config.sftDiv

/-- SFT's right count: the less significant digit of the address field (R74). -/
def rightCount (a : Nat) : Nat := a % config.sftDiv

/-- The fixed table of ten handlers, by opcode digit (R76, R95). -/
def handlerTable (op : Nat) (a : Nat) : Option Instr :=
  match op with
  | 0 => some (.inp a)
  | 1 => some (.cla a)
  | 2 => some (.add a)
  | 3 => some (.tac a)
  | 4 => some (.sft (leftCount a) (rightCount a))
  | 5 => some (.out a)
  | 6 => some (.sto a)
  | 7 => some (.sub a)
  | 8 => some (.jmp a)
  | 9 => some (.hrs a)
  | _ => none

/-- Decode and lookup of one word (R71, and the two tests of sub-step 4 of R90, in their order R174). -/
def decode (w : Int) : Except DecodeError Instr :=
  if opcodeOf w < 0 ∨ (config.nOpcodes : Int) ≤ opcodeOf w then .error (.undecodedOpcode w)
  else if addressOf w < 0 then .error (.negativeAddress (addressOf w))
  else
    match handlerTable (opcodeOf w).toNat (addressOf w).toNat with
    | some i => .ok i
    | none => .error (.undecodedOpcode w)

/-- The opcode digit of an instruction (R76). -/
def Instr.opcode (i : Instr) : Nat :=
  match i with
  | .inp _ => 0
  | .cla _ => 1
  | .add _ => 2
  | .tac _ => 3
  | .sft _ _ => 4
  | .out _ => 5
  | .sto _ => 6
  | .sub _ => 7
  | .jmp _ => 8
  | .hrs _ => 9

/-- The address field of an instruction (R73, R74). -/
def Instr.addressField (i : Instr) : Nat :=
  match i with
  | .inp a => a
  | .cla a => a
  | .add a => a
  | .tac a => a
  | .sft l r => config.sftDiv * l + r
  | .out a => a
  | .sto a => a
  | .sub a => a
  | .jmp a => a
  | .hrs a => a

/-- The word of an instruction: `100 * opcode + address` (R75). -/
def encode (i : Instr) : Int := (config.opDiv * i.opcode + i.addressField : Nat)

/-- The instruction the decoder reads from a word handed over as a bit pattern. The machine is decimal and has no
bits (R55, R76), so the pattern's numeric value IS the word; DESIGN CHOICE (log 14). -/
def decodeTableWord (_nbits w : Nat) : Option Instr :=
  match decode (w : Int) with
  | .ok i => some i
  | .error _ => none

end Sys2Proof
end

