-- ==== Sys2Proof/Machine/State.lean ====
section
/-! DEFINITION. The machine's state, as plain data (spec/10_state.md R20), its faults (spec/60_exceptions.md R170), the
refusals, and the state right after power-on (R31). -/

namespace Sys2Proof.Machine

/-- The three fatal errors, each with the information it records (R170). They are what the latch `State.fault` holds:
a step or host operation that meets one answers a NEXT state with the latch set (R175, log 3), so no meaning, and
neither `step` nor a host operation, ever answers `Outcome.fault`. Safe: a faulted engine is dead (R177). -/
inductive Fault where
  /-- Code 1. A reference to a cell index outside 0..99 (R171). Raised by fetch (`step`), by decode of a word in
  -99..-1 (`step`), and by the host's load, read and write of cells. Safe. -/
  | addressOutOfRange (addr : Int)
  /-- Code 2. The fetched word's opcode has no handler (R172). Raised by `step` at lookup. Safe. -/
  | undecodedOpcode (w : Int)
  /-- Code 3. INP popped a card outside [-999, 999] (R173). Raised by `execInp` alone. Safe. -/
  | malformedInputValue (v : Int)
  deriving DecidableEq, Repr

/-- Why something is given no meaning. No step of the engine answers one: only host operations do. -/
inductive Refusal where
  /-- An instruction whose meaning is not written. No arm of `exec` answers it in this package. Safe. -/
  | notModelled (mnemonic : String)
  /-- A host load or cell write of a value no cell can hold (R203, R209, D9; log 9): no effect and no fault. Raised by
  `hostLoadProgram` and `hostWriteCell`. Safe: it gives such an operation no meaning. -/
  | valueOutOfRange (v : Int)
  /-- A load whose list names this address twice, so it is no mapping and no input of R203. Raised by
  `hostLoadProgram`. Safe. -/
  | notAMapping (addr : Int)
  deriving DecidableEq, Repr

/-- The memory: the cells that differ from their power-on values, as (address, value) pairs. The cell is the only unit
of access and holds a signed integer (R22, R51), so the pairs hold integers and not bytes (log 1, log 2). -/
abbrev Memory := List (Nat × Int)

/-- The engine's nine state components, and nothing else (R20). -/
structure State where
  /-- `Mem` (R22). -/
  mem : Memory
  /-- The accumulator: any integer (R23). -/
  acc : Int
  /-- The sign latch: true records non-negative (R24). -/
  flag : Bool
  /-- The program counter, the document's "target": any natural (R25). -/
  pc : Nat
  /-- The input deck, head first: INP takes the last element (R26, R9). -/
  inDeck : List Int
  /-- The output deck, head first: OUT appends at the end (R27). -/
  outDeck : List Int
  /-- The run latch (R28). -/
  run : Bool
  /-- The step counter (R28, R184). -/
  steps : Nat
  /-- The fault latch (R20, R175). -/
  fault : Option Fault
  deriving DecidableEq, Repr

/-- Power-on (R31, R200): nothing listed in memory means that every cell holds its power-on value (`blankCell`). -/
def State.reset : State where
  mem := []
  acc := 0
  flag := true
  pc := 0
  inDeck := []
  outDeck := []
  run := false
  steps := 0
  fault := none

end Sys2Proof.Machine
end

