-- ==== Sys2Proof/Machine/Ops.lean ====
section
/-! DEFINITION. The named operations: the state's components, the memory list, the two access primitives
(spec/20_memory.md R52, R53), taking a fault (spec/60_exceptions.md R175) and the decks (spec/00_scope.md R9). -/

namespace Sys2Proof.Machine

/-! ### One component at a time: `name <- v` of R10 -/

def State.setMem (s : State) (v : Memory) : State := { s with mem := v }
def State.setAcc (s : State) (v : Int) : State := { s with acc := v }
def State.setFlag (s : State) (v : Bool) : State := { s with flag := v }
def State.setPc (s : State) (v : Nat) : State := { s with pc := v }
def State.setInDeck (s : State) (v : List Int) : State := { s with inDeck := v }
def State.setOutDeck (s : State) (v : List Int) : State := { s with outDeck := v }
def State.setRun (s : State) (v : Bool) : State := { s with run := v }
def State.setSteps (s : State) (v : Nat) : State := { s with steps := v }
def State.setFault (s : State) (v : Option Fault) : State := { s with fault := v }

/-! ### The memory list -/

/-- The value of cell `a`: the listed one, or the power-on value of an unlisted cell (R31). -/
def Memory.read (m : Memory) (a : Nat) : Int :=
  match m with
  | [] => blankCell a
  | (b, w) :: rest => if a = b then w else Memory.read rest a

/-- The list without any entry for cell `a`. -/
def Memory.forget (m : Memory) (a : Nat) : Memory :=
  match m with
  | [] => []
  | (b, w) :: rest => if b = a then Memory.forget rest a else (b, w) :: Memory.forget rest a

/-- The list with an entry for cell `a` put before the first larger address. -/
def Memory.insert (m : Memory) (a : Nat) (v : Int) : Memory :=
  match m with
  | [] => [(a, v)]
  | (b, w) :: rest => if a < b then (a, v) :: (b, w) :: rest else (b, w) :: Memory.insert rest a v

/-- `Mem[a] <- v`. Writing the power-on value removes the entry, so equal memories are equal lists. -/
def Memory.write (m : Memory) (a : Nat) (v : Int) : Memory :=
  if v = blankCell a then Memory.forget m a else Memory.insert (Memory.forget m a) a v

/-- The canonical form above a lower bound: addresses strictly rising and naming cells, no power-on value listed. -/
def Memory.wfFrom (lo : Nat) (m : Memory) : Bool :=
  match m with
  | [] => true
  | (a, v) :: rest =>
    decide (lo ≤ a) && addrInRange a && decide (v ≠ blankCell a) && Memory.wfFrom (a + 1) rest

/-- The canonical form of the memory list (log 2). -/
def Memory.wf (m : Memory) : Bool := Memory.wfFrom 0 m

/-- Every listed value is one a cell may hold (R22). -/
def Memory.cellsInRange (m : Memory) : Bool := m.all fun c => cellInRange c.2

/-! ### Faults -/

/-- TAKING A FAULT (R175): the latch is set, and nothing else is saved or changed; there is no vector and no mode.
There is no return from a fault (R177), so no operation stands beside it: only construction clears the latch. A latch
that is already set is overwritten, as R175's assignment reads (log 4). -/
def raiseFault (f : Fault) (s : State) : State := s.setFault (some f)

/-- R170's cause codes. -/
def Fault.code (f : Fault) : Nat :=
  match f with
  | .addressOutOfRange _ => 1
  | .undecodedOpcode _ => 2
  | .malformedInputValue _ => 3

/-- R170's recorded information. -/
def Fault.info (f : Fault) : Int :=
  match f with
  | .addressOutOfRange a => a
  | .undecodedOpcode w => w
  | .malformedInputValue v => v

/-- The end of a handler that reached state `s` and then computed `r`: its result, or `s` with the fault taken. What
was done before the `raise` stays done (R176, the spec's decision D3; log 3). -/
def settle (s : State) (r : Except Fault State) : Host.Outcome State Fault Refusal :=
  match r with
  | .ok t => .next t
  | .error f => .next (raiseFault f s)

/-! ### The access primitives -/

/-- `MemRead(addr, 1)` (R52). -/
def memRead (addr : Int) (s : State) : Except Fault Int :=
  if addrInRange addr then .ok (Memory.read s.mem addr.toNat) else .error (.addressOutOfRange addr)

/-- `MemWrite(addr, 1, v)` (R53). Every caller supplies a value in range; the primitive does not test it. -/
def memWrite (addr : Int) (v : Int) (s : State) : Except Fault State :=
  if addrInRange addr then .ok (s.setMem (Memory.write s.mem addr.toNat v)) else .error (.addressOutOfRange addr)

/-! ### The decks -/

/-- INP's reading of the input deck (R110): the state once the tail card is consumed, and the value read or the fault
its range check raises. An empty deck gives 0 and is no fault. -/
def takeCard (s : State) : State × Except Fault Int :=
  match s.inDeck.getLast? with
  | none => (s, .ok config.emptyCard)
  | some v =>
    (s.setInDeck s.inDeck.dropLast, if cardInRange v then .ok v else .error (.malformedInputValue v))

/-- OUT's writing of the output deck (R111): at the tail. -/
def putCard (v : Int) (s : State) : State := s.setOutDeck (s.outDeck ++ [v])

/-- The host's queueing of a card (R207): at the head of the input deck. -/
def queueCard (v : Int) (s : State) : State := s.setInDeck (v :: s.inDeck)

end Sys2Proof.Machine
end

