-- ==== Sys2Proof/Machine/Cycle.lean ====
section
/-! DEFINITION. The sub-steps around a handler (spec/40_step_cycle.md R90 to R97). -/

namespace Sys2Proof.Machine

/-- Fetch: the cell at `pc`, with the bounds check (R91). -/
def fetchWord (s : State) : Except Fault Int := memRead s.pc s

/-- Advance: unconditional and unbounded (R94). -/
def advance (s : State) : State := s.setPc (s.pc + 1)

/-- The fault a rejected word raises at sub-step 4 (R93, R95). -/
def decodeFault (e : DecodeError) : Fault :=
  match e with
  | .undecodedOpcode w => .undecodedOpcode w
  | .negativeAddress a => .addressOutOfRange a

/-- Count: a completed step counts, a step that raised a fault does not (R97). It is applied after a handler that was
entered with the latch clear, so a set latch means that this step raised it. -/
def countStep (o : Host.Outcome State Fault Refusal) : Host.Outcome State Fault Refusal :=
  match o with
  | .next t => .next (if t.fault = none then t.setSteps (t.steps + 1) else t)
  | .fault f => .fault f
  | .refused r => .refused r

/-- The cell from which `withFetchWord` makes the next step fetch: the one at `pc`, or cell 0 where `pc` names none. -/
def fetchCell (s : State) : Nat := if addrInRange s.pc then s.pc else 0

end Sys2Proof.Machine
end

