-- ==== Sys2Proof/Machine/Flags.lean ====
section
/-! DEFINITION. The sign latch: the machine's only condition code, and the three rules by which it is written
(spec/10_state.md R24, spec/43_arithmetic.md R135). -/

namespace Sys2Proof.Machine

/-- True records "non-negative"; zero is non-negative (R24). -/
def nonNegative (v : Int) : Bool := decide (0 ≤ v)

/-- CLA latches the sign of the value loaded (R120). -/
def claFlag (loaded : Int) : Bool := nonNegative loaded

/-- ADD latches the sign of the OPERAND, not of the sum (R130, R135). -/
def addFlag (operand : Int) : Bool := nonNegative operand

/-- SUB latches the sign of the RESULT (R132, R135). -/
def subFlag (result : Int) : Bool := nonNegative result

/-- TAC's condition: the latch records a negative value (R150). -/
def tacTaken (flag : Bool) : Bool := !flag

end Sys2Proof.Machine
end

