-- ==== Sys2Proof/Machine/Operands.lean ====
section
/-! DEFINITION. The operand forms: the cell operand (spec/42_load_store.md R119), the cells the instructions store to,
the values they store, and SFT's decimal shifts (spec/43_arithmetic.md R131). -/

namespace Sys2Proof.Machine

/-- A handler that reads one cell operand and goes on with its value (R119). -/
def withCell (a : Nat) (s : State) (k : Int → State) : Host.Outcome State Fault Refusal :=
  settle s ((memRead a s).map k)

/-- The cell INP writes: none for the guarded address (R110). -/
def inpDestination (a : Nat) : Option Nat := if a = config.guardAddr then none else some a

/-- The cell STO writes (R121). -/
def stoDestination (a : Nat) : Option Nat := some a

/-- The value STO writes: the low three digits, with the sign (R121). -/
def stoValue (acc : Int) : Int := tmod acc config.storeMod

/-- The cell a jump to `a` records its return instruction in: none for destination 100 (R151). -/
def returnSlot (a : Nat) : Option Nat := if a = config.noRet then none else some config.retSlot

/-- The return instruction, from the advanced target (R151). -/
def returnWord (pc : Nat) : Int := config.retBase + pc

/-- A write to the cell an operand form names, if it names one. -/
def storeTo (dest : Option Nat) (v : Int) (s : State) : Except Fault State :=
  match dest with
  | none => .ok s
  | some b => memWrite b v s

/-- The jump operation shared by JMP and a taken TAC (R151): the record first, the transfer second. -/
def jump (a : Nat) (s : State) : Host.Outcome State Fault Refusal :=
  settle s ((storeTo (returnSlot a) (returnWord s.pc) s).map fun t => t.setPc a)

/-! ### Decimal digit shift -/

/-- SFT's remainder, by the configured sign convention (93, U5; D6, log 6). -/
def sftRem (a b : Int) : Int :=
  match config.sftSign with
  | .truncating => tmod a b
  | .flooring => Int.fmod a b

/-- SFT's quotient, by the configured sign convention (93, U5; D6, log 6). -/
def sftQuot (a b : Int) : Int :=
  match config.sftSign with
  | .truncating => tdiv a b
  | .flooring => Int.fdiv a b

/-- Multiply by ten, `n` times (R131; the products are exact integers, D19, log 10). -/
def shiftLeft (n : Nat) (t : Int) : Int :=
  match n with
  | 0 => t
  | k + 1 => shiftLeft k (t * config.sftDiv)

/-- Keep the low four decimal digits (R131). -/
def accWindow (t : Int) : Int := sftRem t config.accWindow

/-- Divide by ten, `n` times (R131). -/
def shiftRight (n : Nat) (t : Int) : Int :=
  match n with
  | 0 => t
  | k + 1 => shiftRight k (sftQuot t config.sftDiv)

/-- SFT's datapath: left, mask, right, in this order (R131). -/
def shiftDigits (l r : Nat) (t : Int) : Int := shiftRight r (accWindow (shiftLeft l t))

end Sys2Proof.Machine
end

