-- ==== Sys2Proof/Machine/Arithmetic.lean ====
section
/-! DEFINITION. ADD, SUB and SFT (spec/43_arithmetic.md). Sums and differences are exact integers (R134). -/

namespace Sys2Proof.Machine

/-- ADD (R130). -/
def execAdd (a : Nat) (s : State) : Host.Outcome State Fault Refusal :=
  withCell a s fun m => (s.setAcc (s.acc + m)).setFlag (addFlag m)

/-- SUB (R132). -/
def execSub (a : Nat) (s : State) : Host.Outcome State Fault Refusal :=
  withCell a s fun m => (s.setAcc (s.acc - m)).setFlag (subFlag (s.acc - m))

/-- SFT (R131). The latch is left as it was. -/
def execSft (l r : Nat) (s : State) : Host.Outcome State Fault Refusal :=
  .next (s.setAcc (shiftDigits l r s.acc))

end Sys2Proof.Machine
end

