-- ==== Sys2Proof/Machine/Control.lean ====
section
/-! DEFINITION. TAC, JMP and HRS (spec/44_control.md). A handler finds the advanced target in `pc` (R94). -/

namespace Sys2Proof.Machine

/-- TAC (R150). A taken TAC is the whole jump operation, with its record in cell 99 (D8, log 8). -/
def execTac (a : Nat) (s : State) : Host.Outcome State Fault Refusal :=
  if tacTaken s.flag then (if config.tacRecordsReturn then jump a s else .next (s.setPc a)) else .next s

/-- JMP (R152). -/
def execJmp (a : Nat) (s : State) : Host.Outcome State Fault Refusal := jump a s

/-- HRS (R153). -/
def execHrs (a : Nat) (s : State) : Host.Outcome State Fault Refusal := .next ((s.setPc a).setRun false)

end Sys2Proof.Machine
end

