-- ==== Sys2Proof/Machine/InputOutput.lean ====
section
/-! DEFINITION. INP and OUT (spec/41_io.md). -/

namespace Sys2Proof.Machine

/-- INP (R110). The guard at address 0 covers the write only: the card is consumed and checked all the same (D7, log 7). -/
def execInp (a : Nat) (s : State) : Host.Outcome State Fault Refusal :=
  if config.inp0Consumes = false ∧ inpDestination a = none then .next s
  else
    match takeCard s with
    | (t, .ok v) => settle t (storeTo (inpDestination a) v t)
    | (t, .error f) => .next (raiseFault f t)

/-- OUT (R111). -/
def execOut (a : Nat) (s : State) : Host.Outcome State Fault Refusal :=
  withCell a s fun m => putCard m s

end Sys2Proof.Machine
end

