-- ==== Sys2Proof/Machine/LoadStore.lean ====
section
/-! DEFINITION. CLA and STO (spec/42_load_store.md). -/

namespace Sys2Proof.Machine

/-- CLA (R120). -/
def execCla (a : Nat) (s : State) : Host.Outcome State Fault Refusal :=
  withCell a s fun m => (s.setAcc m).setFlag (claFlag m)

/-- STO (R121). The accumulator keeps all its digits. -/
def execSto (a : Nat) (s : State) : Host.Outcome State Fault Refusal :=
  settle s (storeTo (stoDestination a) (stoValue s.acc) s)

end Sys2Proof.Machine
end

