-- ==== Sys2Proof/Machine/Dispatch.lean ====
section
/-! DEFINITION. The dispatch of sub-step 5 (spec/40_step_cycle.md R95, R96): `exec i s` is the handler of `i` invoked in
the state `s` whose `pc` is already the advanced target. What surrounds the handler is in Step.lean. -/

namespace Sys2Proof.Machine

def exec (i : Instr) (s : State) : Host.Outcome State Fault Refusal :=
  match i with
  | .inp a => Sys2Proof.Machine.execInp a s
  | .cla a => Sys2Proof.Machine.execCla a s
  | .add a => Sys2Proof.Machine.execAdd a s
  | .tac a => Sys2Proof.Machine.execTac a s
  | .sft l r => Sys2Proof.Machine.execSft l r s
  | .out a => Sys2Proof.Machine.execOut a s
  | .sto a => Sys2Proof.Machine.execSto a s
  | .sub a => Sys2Proof.Machine.execSub a s
  | .jmp a => Sys2Proof.Machine.execJmp a s
  | .hrs a => Sys2Proof.Machine.execHrs a s

end Sys2Proof.Machine
end

