-- ==== Sys2Proof/Machine/Step.lean ====
section
/-! DEFINITION. One step (spec/40_step_cycle.md R90), and the host's way to put one word where the next step fetches. -/

namespace Sys2Proof.Machine

/-- One fetch-decode-execute cycle: sub-steps 0 to 6 of R90, in their order. It does not read `run` (R98). -/
def step (s : State) : Host.Outcome State Fault Refusal :=
  if s.fault ≠ none then .next s
  else
    match fetchWord s with
    | .error f => .next (raiseFault f s)
    | .ok w =>
      match decode w with
      | .error e => .next (raiseFault (decodeFault e) (advance s))
      | .ok i => countStep (exec i (advance s))

/-- `s` with the word of numeric value `w` in the cell the next step fetches from. It stands for the host's single-cell
write (R209); where the fetch could not succeed (a set fault latch, a `pc` outside 0..99) it clears the latch and takes
cell 0, since nothing else makes the next step run the word. Log 14 says how a program comes to run. -/
def State.withFetchWord (s : State) (_nbits w : Nat) : State :=
  ((s.setMem (Memory.write s.mem (fetchCell s) w)).setPc (fetchCell s)).setFault none

end Sys2Proof.Machine
end

