-- ==== Sys2Proof/Machine/Run.lean ====
section
/-! DEFINITION. The run loop and the end of a run (spec/40_step_cycle.md R99 to R101, the spec's decision D13; log 11). -/

namespace Sys2Proof.Machine

/-- The run loop's test: `run = true and fault = none` (R99). -/
def State.running (s : State) : Bool := s.run && s.fault.isNone

/-- A halted end of a run: the loop has stopped and no fault is latched (R100). -/
def State.halted (s : State) : Bool := !s.run && s.fault.isNone

/-- A faulted end of a run (R100, R177). -/
def State.faulted (s : State) : Bool := s.fault.isSome

/-- The run loop, test first, for at most `budget` steps. The engine has no step limit (R101), so the budget is the
executor's: a result that is still `running` is an unfinished run. -/
def runLoop (budget : Nat) (s : State) : Host.Outcome State Fault Refusal :=
  match budget with
  | 0 => .next s
  | k + 1 =>
    if s.running then
      match step s with
      | .next t => runLoop k t
      | .fault f => .fault f
      | .refused r => .refused r
    else .next s

end Sys2Proof.Machine
end

