-- ==== Sys2Proof/Machine/HostInterface.lean ====
section
/-! DEFINITION. The host's operations between steps (spec/70_reset_and_hazards.md R200 to R214). Reading the state
(R210) needs no operation here: it is reading the fields of `State`, with no side effect; of cells, `hostReadCell`. -/

namespace Sys2Proof.Machine

/-- Construct (R200): the only operation that clears the fault latch. -/
def hostConstruct : State := State.reset

/-- Reset (R201). Memory is left as it is, and so is the fault latch (D24; log 4). -/
def hostReset (s : State) : State :=
  { s with pc := 0, steps := 0, acc := 0, inDeck := [], outDeck := [], flag := true, run := false }

/-- Clear-memory (R202): every cell takes its power-on value, which the memory list says by listing nothing. -/
def hostClearMemory (s : State) : State := s.setMem []

/-- The least address of a load that names no cell (R203). -/
def leastBadAddress (p : List (Int × Int)) : Option Int :=
  match p with
  | [] => none
  | (a, _) :: rest =>
    if addrInRange a then leastBadAddress rest
    else
      match leastBadAddress rest with
      | none => some a
      | some b => some (if a ≤ b then a else b)

/-- The first value of a load that no cell can hold (R203, D9; log 9). -/
def firstBadValue (p : List (Int × Int)) : Option Int :=
  match p with
  | [] => none
  | (_, v) :: rest => if cellInRange v then firstBadValue rest else some v

/-- The first address a list names again later, so that it is no mapping. -/
def firstRepeated (p : List (Int × Int)) : Option Int :=
  match p with
  | [] => none
  | (a, _) :: rest => if rest.any (fun c => c.1 == a) then some a else firstRepeated rest

/-- The writes of a load, in the list's order; the addresses are distinct, so the order does not matter (R203). -/
def writeCells (p : List (Int × Int)) (m : Memory) : Memory :=
  match p with
  | [] => m
  | (a, v) :: rest => writeCells rest (Memory.write m a.toNat v)

/-- Load program (R203): all or nothing, addresses checked before values (D9, D14; log 9). -/
def hostLoadProgram (p : List (Int × Int)) (s : State) : Host.Outcome State Fault Refusal :=
  match firstRepeated p with
  | some a => .refused (.notAMapping a)
  | none =>
    match leastBadAddress p with
    | some a => .next (raiseFault (.addressOutOfRange a) s)
    | none =>
      match firstBadValue p with
      | some v => .refused (.valueOutOfRange v)
      | none => .next (s.setMem (writeCells p s.mem))

/-- Read cell (R208): what the host is handed, and the state, in which a bad address latches a fault (D23; log 9). -/
def hostReadCell (addr : Int) (s : State) : Option Int × State :=
  match memRead addr s with
  | .ok v => (some v, s)
  | .error f => (none, raiseFault f s)

/-- Write cell (R209): the address is checked first, as in the load of the one-entry mapping it is equivalent to. -/
def hostWriteCell (addr : Int) (v : Int) (s : State) : Host.Outcome State Fault Refusal :=
  match memWrite addr v s with
  | .error f => .next (raiseFault f s)
  | .ok t => if cellInRange v then .next t else .refused (.valueOutOfRange v)

/-- Set target (R205): any natural is accepted. -/
def hostSetTarget (n : Nat) (s : State) : State := s.setPc n

/-- Set run-state (R206). -/
def hostSetRun (b : Bool) (s : State) : State := s.setRun b

/-- Queue card (R207): any integer is accepted. -/
def hostQueueCard (v : Int) (s : State) : State := queueCard v s

/-- What a host can do to the engine (R204, R212). -/
inductive HostOp where
  | construct
  | reset
  | clearMemory
  | loadProgram (p : List (Int × Int))
  | readCell (addr : Int)
  | writeCell (addr v : Int)
  | setTarget (n : Nat)
  | setRun (b : Bool)
  | queueCard (v : Int)
  | step
  | run (budget : Nat)
  deriving DecidableEq, Repr

/-- One host operation. -/
def hostAct (op : HostOp) (s : State) : Host.Outcome State Fault Refusal :=
  match op with
  | .construct => .next hostConstruct
  | .reset => .next (hostReset s)
  | .clearMemory => .next (hostClearMemory s)
  | .loadProgram p => hostLoadProgram p s
  | .readCell addr => .next (hostReadCell addr s).2
  | .writeCell addr v => hostWriteCell addr v s
  | .setTarget n => .next (hostSetTarget n s)
  | .setRun b => .next (hostSetRun b s)
  | .queueCard v => .next (hostQueueCard v s)
  | .step => step s
  | .run budget => runLoop budget s

/-- A session: host operations and steps one after another (R60). A refused operation has no effect (R203, R209). -/
def hostPerform (ops : List HostOp) (s : State) : State :=
  match ops with
  | [] => s
  | op :: rest =>
    match hostAct op s with
    | .next t => hostPerform rest t
    | .fault _ => hostPerform rest s
    | .refused _ => hostPerform rest s

/-- The operations of a clean launch (R213, R214, R215): construct, load, queue the cards in reading order, set the
entry, start. -/
def launchOps (p : List (Int × Int)) (cards : List Int) (entry : Nat) : List HostOp :=
  [.construct, .loadProgram p] ++ cards.map .queueCard ++ [.setTarget entry, .setRun true]

end Sys2Proof.Machine
end

