-- ==== Sys2Proof/Safety.lean ====
section
/-! DEFINITION. What statements call a good state: the invariant of reachable states (spec/10_state.md R30), and the
named premises of a clean launch (spec/70_reset_and_hazards.md R214). -/

namespace Sys2Proof.Machine

/-- The part of R30 that a state shows: the memory list is canonical, so that it names only cells (a), every cell is in
range (b), and every card put out is a cell's value (R27). -/
def State.Good (s : State) : Prop :=
  Memory.wf s.mem = true ∧ Memory.cellsInRange s.mem = true ∧ s.outDeck.all cellInRange = true

/-- D10's bound on the accumulator after `steps` steps from reset. -/
def State.AccBounded (s : State) : Prop := s.acc.natAbs ≤ 9999 + 999 * s.steps

/-- The values of `pc` the engine reaches by itself (R25). -/
def State.PcReachable (s : State) : Prop := s.pc ≤ 100

/-- No fault is latched: a claim about a program's result is about such ends only (R100). -/
def State.Safe (s : State) : Prop := s.fault = none

/-- What R203 takes as a program's mapping, and does not refuse or fault on: each address at most once and naming a
cell, each value one a cell may hold. -/
def IsProgram (p : List (Int × Int)) : Prop :=
  (p.map Prod.fst).Nodup ∧ ∀ c ∈ p, addrInRange c.1 = true ∧ cellInRange c.2 = true

/-- The power-on memory overlaid with a program's mapping (R214). -/
def programImage (p : List (Int × Int)) : Memory := writeCells p State.reset.mem

/-- A clean launch of the program `p` on the input cards `cards`, first card to be read first, at `entry`: R214's
premises, each under a name of its own, so that a claim may take some of them and weaken others. None is enforced by
the engine. -/
structure State.CleanLaunch (s : State) (p : List (Int × Int)) (cards : List Int) (entry : Nat) : Prop where
  /-- The mapping is one R203 accepts. -/
  program : IsProgram p
  /-- `fault = none`. -/
  noFault : s.fault = none
  /-- `Mem` is the power-on memory overlaid with the program's mapping. -/
  memory : s.mem = programImage p
  /-- `acc = 0`. -/
  accZero : s.acc = 0
  /-- `flag = true`. -/
  flagSet : s.flag = true
  /-- `steps = 0`. -/
  noSteps : s.steps = 0
  /-- `outDeck = []`. -/
  nothingPutOut : s.outDeck = []
  /-- `inDeck` is the program's input cards, the first card to be read at the tail, where INP takes it (R26). -/
  cardsQueued : s.inDeck = cards.reverse
  /-- `pc` is the program's entry. -/
  atEntry : s.pc = entry
  /-- `run = true`. -/
  started : s.run = true

end Sys2Proof.Machine
end

