-- ==== Sys2Proof/Certificates/Slice0/Obligations.lean ====
section
/-! DEFINITION. The statements for the provers, from the numbered rules of spec/. The numbers of R6 stand here as
numerals, so that a wrong literal of the model's configuration would make a statement false. Where a clause rests on a
decision D<n> of spec/92_eei_decisions.md, the docstring says so; witnesses of the hypotheses are in Tests/Slice0.lean. -/

open Sys2Proof Sys2Proof.Machine

/-! ## Encoding -/

/-- 30_encoding.md R76, the opcode map: every word of every row decodes to that row's instruction, with the row's
address; SFT's address is its two digits (R74). -/
def Obligations.EveryOpcodeRowDecodes : Prop :=
  ∀ a : Nat, a < 100 →
    decode a = .ok (.inp a) ∧ decode (100 + a) = .ok (.cla a) ∧ decode (200 + a) = .ok (.add a) ∧
    decode (300 + a) = .ok (.tac a) ∧ decode (400 + a) = .ok (.sft (a / 10) (a % 10)) ∧
    decode (500 + a) = .ok (.out a) ∧ decode (600 + a) = .ok (.sto a) ∧ decode (700 + a) = .ok (.sub a) ∧
    decode (800 + a) = .ok (.jmp a) ∧ decode (900 + a) = .ok (.hrs a)

/-- Words the spec itself spells out: 95_test_vectors.md V1 to V4, V6 and V12, and words of P1 to P3. -/
def Obligations.SpecWordsDecode : Prop :=
  decode 0 = .ok (.inp 0) ∧ decode 1 = .ok (.inp 1) ∧ decode 99 = .ok (.inp 99) ∧ decode 100 = .ok (.cla 0) ∧
  decode 251 = .ok (.add 51) ∧ decode 316 = .ok (.tac 16) ∧ decode 437 = .ok (.sft 3 7) ∧
  decode 552 = .ok (.out 52) ∧ decode 652 = .ok (.sto 52) ∧ decode 700 = .ok (.sub 0) ∧
  decode 840 = .ok (.jmp 40) ∧ decode 999 = .ok (.hrs 99)

/-- 30_encoding.md R74: SFT's counts are digit 1 and digit 0 of its word, the quotient and the remainder of the address
field by ten. -/
def Obligations.SftCountsAreTheWordsDigits : Prop :=
  ∀ w : Int, 400 ≤ w → w ≤ 499 →
    ∃ l r : Nat, decode w = .ok (.sft l r) ∧ l = digit 1 w ∧ r = digit 0 w ∧
      (l : Int) = tdiv (tmod w 100) 10 ∧ (r : Int) = tmod (tmod w 100) 10

/-- 30_encoding.md R75 (an inference the spec marks as derived from R71): decoding the encoding of a well-formed
instruction gives it back, for every instruction and every operand. -/
def Obligations.DecodeEncodeRoundTrip : Prop :=
  ∀ i : Instr, i.wellFormed = true → decode (encode i) = .ok i

/-- 30_encoding.md R71, R72: a word that decodes is the encoding of the well-formed instruction it decodes to, and lies
in 0..999; so no two words decode to one instruction. That no word of -99..-1 decodes (R77), and with it `0 ≤ w` and that
no two words decode alike, rests on the spec's decision D4 (log 5). -/
def Obligations.DecodedWordIsItsEncoding : Prop :=
  ∀ (w : Int) (i : Instr), decode w = .ok i → i.wellFormed = true ∧ encode i = w ∧ 0 ≤ w ∧ w ≤ 999

/-- 30_encoding.md R72 (marked derived there): every word of 0..999 is an instruction, with R71's quotient and remainder
as its opcode and address field. -/
def Obligations.EveryNonNegativeWordIsAnInstruction : Prop :=
  ∀ w : Int, 0 ≤ w → w ≤ 999 →
    ∃ i : Instr, decode w = .ok i ∧ (i.opcode : Int) = tdiv w 100 ∧ (i.addressField : Int) = tmod w 100

/-- 30_encoding.md R77: all other words are rejected. The clause for -99..-1 is the spec's decision D4 (log 5). -/
def Obligations.OtherWordsAreRejected : Prop :=
  ∀ w : Int, ((w ≤ -100 ∨ 1000 ≤ w) → decode w = .error (.undecodedOpcode w)) ∧
    (-99 ≤ w → w ≤ -1 → decode w = .error (.negativeAddress w))

/-! ## Memory -/

/-- 20_memory.md R52: MemRead returns the cell in 0..99 and raises AddressOutOfRange for every other integer. -/
def Obligations.MemReadChecksTheBounds : Prop :=
  ∀ s : State, (∀ a : Nat, a < 100 → memRead a s = .ok (Memory.read s.mem a)) ∧
    (∀ addr : Int, addr < 0 ∨ 99 < addr → memRead addr s = .error (.addressOutOfRange addr))

/-- 20_memory.md R53: MemWrite changes that one cell and nothing else, and raises AddressOutOfRange outside 0..99; with
R52, the cell then reads as the value written. -/
def Obligations.MemWriteChangesOneCell : Prop :=
  ∀ (addr : Int) (v : Int) (s : State),
    (0 ≤ addr → addr ≤ 99 → ∃ t, memWrite addr v s = .ok t ∧ memRead addr t = .ok v ∧
      (∀ b : Int, b ≠ addr → memRead b t = memRead b s) ∧ t = { s with mem := t.mem }) ∧
    (addr < 0 ∨ 99 < addr → memWrite addr v s = .error (.addressOutOfRange addr))

/-- The model's canonical form of memory (log 2): two canonical lists that read alike at all 100 addresses are the same
list, so states that the spec cannot tell apart are equal. -/
def Obligations.CanonicalMemoriesAreEqualWhenTheyReadAlike : Prop :=
  ∀ m n : Memory, Memory.wf m = true → Memory.wf n = true →
    (∀ a : Nat, a < 100 → Memory.read m a = Memory.read n a) → m = n

/-! ## What each handler does (`exec` runs a handler in the state whose `pc` is already the advanced target) -/

/-- 42_load_store.md R120, CLA. -/
def Obligations.ClaLoadsTheCell : Prop :=
  ∀ (a : Nat) (s : State), a < 100 →
    decode (100 + a) = .ok (.cla a) ∧
    exec (.cla a) s = .next { s with
      acc := Memory.read s.mem a
      flag := decide (Memory.read s.mem a ≥ 0) } ∧
    (Memory.cellsInRange s.mem = true → (Memory.read s.mem a).natAbs ≤ 999)

/-- 43_arithmetic.md R130, ADD: the exact sum; the latch takes the sign of the OPERAND. -/
def Obligations.AddAddsAndLatchesTheOperand : Prop :=
  ∀ (a : Nat) (s : State), a < 100 →
    decode (200 + a) = .ok (.add a) ∧
    exec (.add a) s = .next { s with
      acc := s.acc + Memory.read s.mem a
      flag := decide (Memory.read s.mem a ≥ 0) }

/-- 43_arithmetic.md R132, SUB: the exact difference; the latch takes the sign of the RESULT. -/
def Obligations.SubSubtractsAndLatchesTheResult : Prop :=
  ∀ (a : Nat) (s : State), a < 100 →
    decode (700 + a) = .ok (.sub a) ∧
    exec (.sub a) s = .next { s with
      acc := s.acc - Memory.read s.mem a
      flag := decide (s.acc - Memory.read s.mem a ≥ 0) }

/-- 43_arithmetic.md R131, SFT in the closed form the spec derives. For a negative accumulator it rests on the spec's
decision D6 (log 6), for long products on D19 (log 10). -/
def Obligations.SftShiftsTheMagnitude : Prop :=
  ∀ (l r : Nat) (s : State),
    exec (.sft l r) s = .next { s with
      acc := s.acc.sign * ((s.acc.natAbs * 10 ^ l % 10000 / 10 ^ r : Nat) : Int) }

/-- 43_arithmetic.md R133: SFT lr is SFT 00, then l multiplications by ten, modulo 10000, then r divisions by ten; its
result has at most four digits; and SFT l0 followed by SFT 0r is SFT lr. The sign convention is D6's (log 6), the exact
products D19's (log 10). -/
def Obligations.SftEqualsItsParts : Prop :=
  ∀ (l r : Nat) (s : State), ∃ z t u : State,
    exec (.sft 0 0) s = .next z ∧ exec (.sft l r) s = .next t ∧
    t.acc = (fun x => tdiv x 10)^[r] (tmod ((fun x => x * 10)^[l] z.acc) 10000) ∧
    t.acc.natAbs ≤ 9999 ∧
    exec (.sft l 0) s = .next u ∧ exec (.sft 0 r) u = .next t

/-- 41_io.md R111, OUT: the cell's value, untruncated, at the tail of the output deck. -/
def Obligations.OutAppendsTheCell : Prop :=
  ∀ (a : Nat) (s : State), a < 100 →
    decode (500 + a) = .ok (.out a) ∧
    exec (.out a) s = .next { s with outDeck := s.outDeck ++ [Memory.read s.mem a] }

/-- 42_load_store.md R121, STO: the low three digits with the sign; nothing else changes (R121 marks as its own
inference that `acc` is kept; R23 says it plainly). -/
def Obligations.StoStoresThreeDigits : Prop :=
  ∀ (a : Nat) (s : State), a < 100 →
    decode (600 + a) = .ok (.sto a) ∧
    tmod s.acc 1000 = s.acc.sign * ((s.acc.natAbs % 1000 : Nat) : Int) ∧
    exec (.sto a) s = .next { s with mem := Memory.write s.mem a (tmod s.acc 1000) }

/-- 42_load_store.md R122, the store-then-load law: STO a then CLA a leaves the three-digit value and its sign, and
doing the pair again changes nothing. -/
def Obligations.StoThenClaReproducesTheStoredValue : Prop :=
  ∀ (a : Nat) (s : State), a < 100 → ∃ t u v : State,
    exec (.sto a) s = .next t ∧ exec (.cla a) t = .next u ∧
    u.acc = tmod s.acc 1000 ∧ u.flag = decide (tmod s.acc 1000 ≥ 0) ∧
    exec (.sto a) u = .next v ∧ exec (.cla a) v = .next u

/-- 44_control.md R150, TAC: nothing when the latch is set, else the whole jump operation. That a taken TAC writes cell
99 is the spec's decision D8 (log 8). -/
def Obligations.TacBranchesOnTheLatch : Prop :=
  ∀ (a : Nat) (s : State), a < 100 →
    exec (.tac a) s = .next (if s.flag = true then s
      else { s with mem := Memory.write s.mem 99 (800 + s.pc), pc := a })

/-- 44_control.md R151 and R152, JMP: the return instruction `800 + pc` goes to cell 99, except for destination 100, and
then `pc` takes the destination. -/
def Obligations.JmpRecordsTheReturn : Prop :=
  (∀ a : Nat, a < 100 → decode (800 + a) = .ok (.jmp a)) ∧
  ∀ (a : Nat) (s : State),
    exec (.jmp a) s = jump a s ∧
    (a ≠ 100 → exec (.jmp a) s = .next { s with mem := Memory.write s.mem 99 (800 + s.pc), pc := a }) ∧
    (a = 100 → exec (.jmp a) s = .next { s with pc := 100 })

/-- 44_control.md R153, HRS. -/
def Obligations.HrsHaltsAndSetsTheTarget : Prop :=
  (∀ a : Nat, a < 100 → decode (900 + a) = .ok (.hrs a)) ∧
  ∀ (a : Nat) (s : State), exec (.hrs a) s = .next { s with pc := a, run := false }

/-- 41_io.md R110, INP with an empty deck: 0 is stored, except at address 0. -/
def Obligations.InpOfAnEmptyDeckStoresZero : Prop :=
  ∀ (a : Nat) (s : State), a < 100 → s.inDeck = [] →
    exec (.inp a) s = .next (if a = 0 then s else { s with mem := Memory.write s.mem a 0 })

/-- 41_io.md R110, INP of a card in range: the TAIL card is consumed and stored. That it is consumed at address 0 too is
the spec's decision D7 (log 7). -/
def Obligations.InpStoresTheTailCard : Prop :=
  ∀ (a : Nat) (s : State) (cards : List Int) (v : Int), a < 100 → s.inDeck = cards ++ [v] →
    -999 ≤ v → v ≤ 999 →
    exec (.inp a) s = .next { s with
      inDeck := cards
      mem := if a = 0 then s.mem else Memory.write s.mem a v }

/-- 41_io.md R110, INP of a card outside [-999, 999]: MalformedInputValue, the card consumed, nothing written. The latch
and what a fault leaves are the spec's decisions D1 and D3 (log 3); that INP 00 consumes and range-checks its card, and so
faults, is D7 (log 7). -/
def Obligations.InpRejectsACardOutOfRange : Prop :=
  ∀ (a : Nat) (s : State) (cards : List Int) (v : Int), a < 100 → s.inDeck = cards ++ [v] →
    (v < -999 ∨ 999 < v) →
    exec (.inp a) s = .next { s with inDeck := cards, fault := some (.malformedInputValue v) }

/-! ## Frames: what an instruction leaves unchanged -/

/-- 10_state.md R32: CLA, ADD and SUB write `acc` and `flag` only, SFT `acc` only; none writes a cell. -/
def Obligations.AccumulatorInstructionsFrame : Prop :=
  ∀ (i : Instr) (s t : State), i.wellFormed = true →
    ((∃ a, i = .cla a ∨ i = .add a ∨ i = .sub a) ∨ ∃ l r, i = .sft l r) → exec i s = .next t →
    (∀ b : Nat, Memory.read t.mem b = Memory.read s.mem b) ∧ t.pc = s.pc ∧ t.inDeck = s.inDeck ∧
    t.outDeck = s.outDeck ∧ t.run = s.run ∧ t.steps = s.steps ∧ t.fault = s.fault ∧
    ((∃ l r, i = .sft l r) → t.flag = s.flag)

/-- 10_state.md R32: OUT writes the output deck only. -/
def Obligations.OutFrame : Prop :=
  ∀ (a : Nat) (s t : State), a < 100 → exec (.out a) s = .next t →
    (∀ b : Nat, Memory.read t.mem b = Memory.read s.mem b) ∧ t.acc = s.acc ∧ t.flag = s.flag ∧ t.pc = s.pc ∧
    t.inDeck = s.inDeck ∧ t.run = s.run ∧ t.steps = s.steps ∧ t.fault = s.fault

/-- 10_state.md R32: INP writes the cell `inpDestination` names, STO the one `stoDestination` names, and no other cell;
INP also writes the input deck, and the fault latch when it rejects a card, and then it writes no cell: that clause,
the latch and what the fault leaves, is the spec's decisions D1 and D3 (log 3). -/
def Obligations.StoringInstructionsFrame : Prop :=
  ∀ (a : Nat) (s t : State), a < 100 →
    (exec (.inp a) s = .next t →
      (∀ b : Nat, inpDestination a ≠ some b → Memory.read t.mem b = Memory.read s.mem b) ∧
      t.acc = s.acc ∧ t.flag = s.flag ∧ t.pc = s.pc ∧ t.outDeck = s.outDeck ∧ t.run = s.run ∧ t.steps = s.steps ∧
      (t.fault = s.fault ∨ ((∃ v, t.fault = some (.malformedInputValue v)) ∧
        ∀ b : Nat, Memory.read t.mem b = Memory.read s.mem b))) ∧
    (exec (.sto a) s = .next t →
      (∀ b : Nat, stoDestination a ≠ some b → Memory.read t.mem b = Memory.read s.mem b) ∧
      t.acc = s.acc ∧ t.flag = s.flag ∧ t.pc = s.pc ∧ t.inDeck = s.inDeck ∧ t.outDeck = s.outDeck ∧
      t.run = s.run ∧ t.steps = s.steps ∧ t.fault = s.fault)

/-- 10_state.md R32: JMP and a taken TAC write `pc` and the cell `returnSlot` names; an untaken TAC and HRS write no
cell; HRS alone writes `run`. That a taken TAC records is D8 (log 8). -/
def Obligations.ControlInstructionsFrame : Prop :=
  ∀ (i : Instr) (a : Nat) (s t : State), a < 100 → (i = .tac a ∨ i = .jmp a ∨ i = .hrs a) →
    exec i s = .next t →
    t.acc = s.acc ∧ t.flag = s.flag ∧ t.inDeck = s.inDeck ∧ t.outDeck = s.outDeck ∧ t.steps = s.steps ∧
    t.fault = s.fault ∧ (i ≠ .hrs a → t.run = s.run) ∧
    (∀ b : Nat, (returnSlot a ≠ some b ∨ i = .hrs a ∨ (i = .tac a ∧ s.flag = true)) →
      Memory.read t.mem b = Memory.read s.mem b)

/-! ## One step -/

/-- 40_step_cycle.md R90: with no fault latched and a cell at `pc` that decodes, a step is the handler in the advanced
state, and then the count, which a handler that raised a fault does not reach (R97). That such a step answers the
handler's state itself, `pc` advanced and card gone, is the spec's decision D3 over the latch D1 (log 3). -/
def Obligations.StepRunsTheDecodedInstruction : Prop :=
  ∀ (s t : State) (i : Instr), s.fault = none → s.pc ≤ 99 → decode (Memory.read s.mem s.pc) = .ok i →
    exec i { s with pc := s.pc + 1 } = .next t →
    step s = .next (if t.fault = none then { t with steps := t.steps + 1 } else t)

/-- 40_step_cycle.md R90, R102: a step of any state answers exactly a next state; none ends in a fault of the model or a
refusal. It rests on the fault latch being state (D1, log 3). -/
def Obligations.EveryStepAnswersANextState : Prop :=
  ∀ s : State, ∃ t : State, step s = .next t

/-- 40_step_cycle.md R96: a handler raises MalformedInputValue, INP only, and nothing else. -/
def Obligations.OnlyInpRaisesAFault : Prop :=
  ∀ (i : Instr) (s t : State), i.wellFormed = true → s.fault = none → exec i s = .next t →
    t.fault = none ∨ ∃ (a : Nat) (v : Int), i = .inp a ∧ t.fault = some (.malformedInputValue v)

/-- 60_exceptions.md R170 to R174: which fault a step latches, in order of priority, and that it latches no other. The
latch is D1's, the negative address D4's, the order D5's (log 3, log 5); that the card of word 0, INP 00, is checked too is
D7's (log 7). -/
def Obligations.StepFaultsHaveTheseCauses : Prop :=
  ∀ (s t : State) (f : Fault), s.fault = none → step s = .next t →
    (t.fault = some f ↔
      (99 < s.pc ∧ f = .addressOutOfRange s.pc) ∨
      (s.pc ≤ 99 ∧ (Memory.read s.mem s.pc ≤ -100 ∨ 1000 ≤ Memory.read s.mem s.pc) ∧
        f = .undecodedOpcode (Memory.read s.mem s.pc)) ∨
      (s.pc ≤ 99 ∧ -99 ≤ Memory.read s.mem s.pc ∧ Memory.read s.mem s.pc ≤ -1 ∧
        f = .addressOutOfRange (Memory.read s.mem s.pc)) ∨
      (s.pc ≤ 99 ∧ 0 ≤ Memory.read s.mem s.pc ∧ Memory.read s.mem s.pc ≤ 99 ∧
        ∃ (cards : List Int) (v : Int), s.inDeck = cards ++ [v] ∧ (v < -999 ∨ 999 < v) ∧
          f = .malformedInputValue v))

/-- 60_exceptions.md R176: the state each fault of a step leaves. The whole table is the spec's decision D3, over the
latch D1 (log 3) and D4 (log 5); that word 0, INP 00, consumes and checks its card is D7 (log 7). -/
def Obligations.FaultingStepLeavesThisState : Prop :=
  ∀ s : State, s.fault = none →
    (99 < s.pc → step s = .next { s with fault := some (.addressOutOfRange s.pc) }) ∧
    (s.pc ≤ 99 → (Memory.read s.mem s.pc ≤ -100 ∨ 1000 ≤ Memory.read s.mem s.pc) →
      step s = .next { s with
        pc := s.pc + 1
        fault := some (.undecodedOpcode (Memory.read s.mem s.pc)) }) ∧
    (s.pc ≤ 99 → -99 ≤ Memory.read s.mem s.pc → Memory.read s.mem s.pc ≤ -1 →
      step s = .next { s with
        pc := s.pc + 1
        fault := some (.addressOutOfRange (Memory.read s.mem s.pc)) }) ∧
    (∀ (cards : List Int) (v : Int), s.pc ≤ 99 → 0 ≤ Memory.read s.mem s.pc → Memory.read s.mem s.pc ≤ 99 →
      s.inDeck = cards ++ [v] → (v < -999 ∨ 999 < v) →
      step s = .next { s with
        pc := s.pc + 1
        inDeck := cards
        fault := some (.malformedInputValue v) })

/-- 60_exceptions.md R177 (the spec's decision D1, log 3): a step of a faulted engine has no effect at all. -/
def Obligations.FaultedEngineDoesNotStep : Prop :=
  ∀ s : State, s.fault ≠ none → step s = .next s

/-- 40_step_cycle.md R97: a completed step counts one, a faulting step does not; and the counter "has no effect on
semantics": from another count a step does the same but for the count. That the step of an engine already faulted
adds none is the spec's decision D1 (log 3). -/
def Obligations.StepCounterCountsAndIsNeverRead : Prop :=
  ∀ s t : State, step s = .next t →
    (s.fault = none → t.fault = none → t.steps = s.steps + 1) ∧
    (t.fault ≠ none → t.steps = s.steps) ∧
    ∀ n : Nat, ∃ k : Nat, t.steps = s.steps + k ∧ step { s with steps := n } = .next { t with steps := n + k }

/-- 10_state.md R25, 44_control.md R155: the step's effect on `pc`, by the opcode and nothing else. Of a step that
faults in its handler, INP of a bad card, which leaves `p + 1`, it is R176's table, the spec's decision D3 over the latch
D1 (log 3), and for INP 00 D7 (log 7). -/
def Obligations.StepSetsThePcByTheOpcode : Prop :=
  ∀ (s t : State) (i : Instr), s.fault = none → s.pc ≤ 99 → decode (Memory.read s.mem s.pc) = .ok i →
    step s = .next t →
    ((∃ a, i = .jmp a ∨ i = .hrs a ∨ (i = .tac a ∧ s.flag = false)) → t.pc = i.addressField) ∧
    ((¬ ∃ a, i = .jmp a ∨ i = .hrs a ∨ (i = .tac a ∧ s.flag = false)) → t.pc = s.pc + 1)

/-- 10_state.md R24: over a whole step the latch changes in CLA, ADD and SUB only, each by its own rule. -/
def Obligations.StepLatchesTheSignOnlyInClaAddSub : Prop :=
  ∀ s t : State, step s = .next t →
    t.flag = s.flag ∨ (∃ a : Nat,
      (decode (Memory.read s.mem s.pc) = .ok (.cla a) ∧ t.flag = decide (t.acc ≥ 0)) ∨
      (decode (Memory.read s.mem s.pc) = .ok (.add a) ∧ t.flag = decide (Memory.read s.mem a ≥ 0)) ∨
      (decode (Memory.read s.mem s.pc) = .ok (.sub a) ∧ t.flag = decide (t.acc ≥ 0)))

/-- 10_state.md R23: over a whole step the accumulator changes in CLA, ADD, SUB and SFT only. -/
def Obligations.StepWritesTheAccumulatorOnlyInFourInstructions : Prop :=
  ∀ s t : State, step s = .next t → t.acc ≠ s.acc →
    (∃ a : Nat, decode (Memory.read s.mem s.pc) = .ok (.cla a) ∨ decode (Memory.read s.mem s.pc) = .ok (.add a) ∨
      decode (Memory.read s.mem s.pc) = .ok (.sub a)) ∨
    ∃ l r : Nat, decode (Memory.read s.mem s.pc) = .ok (.sft l r)

/-- 10_state.md R32, 20_memory.md R57: over a whole step a cell changes only as the target of STO or of an unguarded
INP, or as cell 99 of a JMP or a taken TAC (for TAC, D8, log 8). -/
def Obligations.StepWritesACellOnlyAsTarget : Prop :=
  ∀ (s t : State) (b : Nat), step s = .next t → Memory.read t.mem b ≠ Memory.read s.mem b →
    decode (Memory.read s.mem s.pc) = .ok (.sto b) ∨
    (b ≠ 0 ∧ decode (Memory.read s.mem s.pc) = .ok (.inp b)) ∨
    (b = 99 ∧ ∃ a : Nat, decode (Memory.read s.mem s.pc) = .ok (.jmp a) ∨
      (s.flag = false ∧ decode (Memory.read s.mem s.pc) = .ok (.tac a)))

/-- 10_state.md R26, R27: a step takes at most the tail card of the input deck, in INP, and adds at most one card at the
tail of the output deck, in OUT, the cell's value. -/
def Obligations.StepMovesAtMostOneCard : Prop :=
  ∀ s t : State, step s = .next t →
    (t.inDeck = s.inDeck ∨ ∃ (a : Nat) (v : Int), decode (Memory.read s.mem s.pc) = .ok (.inp a) ∧
      s.inDeck = t.inDeck ++ [v]) ∧
    (t.outDeck = s.outDeck ∨ ∃ a : Nat, decode (Memory.read s.mem s.pc) = .ok (.out a) ∧
      t.outDeck = s.outDeck ++ [Memory.read s.mem a])

/-- 10_state.md R24: the latch is read by TAC only: with the other latch value CLA, ADD and SUB do exactly the same, and
every other instruction does the same and carries the other value along. -/
def Obligations.LatchIsReadOnlyByTac : Prop :=
  ∀ (i : Instr) (s t : State) (b : Bool), i.wellFormed = true → (¬ ∃ a, i = .tac a) → exec i s = .next t →
    ((∃ a, i = .cla a ∨ i = .add a ∨ i = .sub a) → exec i { s with flag := b } = .next t) ∧
    ((¬ ∃ a, i = .cla a ∨ i = .add a ∨ i = .sub a) → exec i { s with flag := b } = .next { t with flag := b })

/-- 40_step_cycle.md R98 (marked derived there): a step does not read `run`, and what it does to `run` is only to clear
it. -/
def Obligations.RunLatchIsNeverRead : Prop :=
  ∀ (s t : State) (b : Bool), s.run = true → step s = .next t →
    step { s with run := b } = .next { t with run := t.run && b }

/-- 10_state.md R27: no instruction reads the output deck: with other cards in it a step does the same and appends the
same. -/
def Obligations.OutputDeckIsNeverRead : Prop :=
  ∀ (s t : State) (d : List Int), step s = .next t →
    ∃ e : List Int, t.outDeck = s.outDeck ++ e ∧
      step { s with outDeck := d } = .next { t with outDeck := d ++ e }

/-- 20_memory.md R62: a store is seen by the next fetch of that cell, whichever cell it is, the store's own cell
included. -/
def Obligations.NextFetchSeesTheStore : Prop :=
  ∀ (s : State) (a : Nat), a < 100 → s.fault = none → s.pc ≤ 99 → Memory.read s.mem s.pc = 600 + a →
    ∃ t : State, step s = .next t ∧ t.pc = s.pc + 1 ∧ t.fault = none ∧
      fetchWord { t with pc := a } = .ok (tmod s.acc 1000) ∧
      (∀ b : Nat, b ≠ a → fetchWord { t with pc := b } = fetchWord { s with pc := b })

/-- 44_control.md R152, corner cases 2 to 4: what a jump leaves in cell 99 is the word `JMP p+1`, or `HRS 00` for a jump
from cell 99; and a `JMP 99` executes the word it has just written, so it goes on at `p + 1`. The value at cell 99 is an
inference the spec marks as derived. -/
def Obligations.JumpLeavesItsReturnInstruction : Prop :=
  ∀ (s : State) (a : Nat), a < 100 → s.fault = none → s.pc ≤ 99 → Memory.read s.mem s.pc = 800 + a →
    ∃ t : State, step s = .next t ∧ t.pc = a ∧
      (s.pc ≤ 98 → decode (Memory.read t.mem 99) = .ok (.jmp (s.pc + 1))) ∧
      (s.pc = 99 → Memory.read t.mem 99 = 900 ∧ decode (Memory.read t.mem 99) = .ok (.hrs 0)) ∧
      (s.pc ≤ 98 → a = 99 → ∃ u : State, step t = .next u ∧ u.pc = s.pc + 1 ∧ Memory.read u.mem 99 = 900)

/-! ## Invariants -/

/-- 10_state.md R30: the power-on state is good (a canonical memory of 100 cells, all in range), within the
accumulator's bound and at a reachable `pc`. The canonical form is the model's (log 2), the bound D10's (log 10). -/
def Obligations.PowerOnStateIsGood : Prop :=
  State.reset.Good ∧ State.reset.AccBounded ∧ State.reset.PcReachable

/-- 10_state.md R22, R30 (the range is marked derived there): every step keeps the state good. The canonical form
is the model's (log 2). -/
def Obligations.StepKeepsTheStateGood : Prop :=
  ∀ s t : State, s.Good → step s = .next t → t.Good

/-- 10_state.md R25 (marked derived there): from a `pc` of 0..100 a step leaves a `pc` of 0..100. -/
def Obligations.StepKeepsThePcReachable : Prop :=
  ∀ s t : State, s.PcReachable → step s = .next t → t.PcReachable

/-- 92_eei_decisions.md D10 (log 10): `|acc| <= 9999 + 999 * steps` is kept by every step of a good state. -/
def Obligations.StepKeepsTheAccumulatorBounded : Prop :=
  ∀ s t : State, s.Good → s.AccBounded → step s = .next t → t.AccBounded

/-- 10_state.md R30, with the host: whatever sequence of host operations and steps is performed from power-on, the state
is good and within the accumulator's bound. It rests on D9 (log 9), the host writes no value out of range, and the bound on
D10 (log 10). -/
def Obligations.EverySessionKeepsTheStateGood : Prop :=
  ∀ ops : List HostOp, (hostPerform ops State.reset).Good ∧ (hostPerform ops State.reset).AccBounded

/-! ## Reset and the host's operations -/

/-- 70_reset_and_hazards.md R200: construction gives the power-on state, and is the only operation that clears the fault
latch. That there is a latch is the spec's decision D1 (log 3); that nothing else clears it, so that reset and clear-memory
keep it, is D24, marked so in R177 and R201 (log 4, DEDUCED). -/
def Obligations.ConstructGivesThePowerOnState : Prop :=
  (∀ s : State, hostAct .construct s = .next State.reset) ∧
  (∀ a : Nat, a < 100 → Memory.read State.reset.mem a = if a = 0 then 1 else if a = 99 then 800 else 0) ∧
  State.reset.acc = 0 ∧ State.reset.flag = true ∧ State.reset.pc = 0 ∧ State.reset.steps = 0 ∧
  State.reset.inDeck = [] ∧ State.reset.outDeck = [] ∧ State.reset.run = false ∧ State.reset.fault = none ∧
  ∀ (op : HostOp) (s t : State), s.fault ≠ none → hostAct op s = .next t → t.fault = none → op = .construct

/-- 70_reset_and_hazards.md R201: reset. That `fault` is kept is the spec's decision D24 (log 4). -/
def Obligations.ResetKeepsTheMemory : Prop :=
  ∀ s : State, hostAct .reset s = .next { State.reset with mem := s.mem, fault := s.fault }

/-- 70_reset_and_hazards.md R202: clear-memory restores every cell and nothing else; with reset, in either order, it
gives the power-on state except for `fault` (marked derived there). That both keep `fault` is the spec's decision D24
(log 4, DEDUCED). -/
def Obligations.ClearMemoryRestoresTheCells : Prop :=
  ∀ s : State, ∃ t : State, hostAct .clearMemory s = .next t ∧ t = { s with mem := t.mem } ∧
    (∀ a : Nat, a < 100 → Memory.read t.mem a = if a = 0 then 1 else if a = 99 then 800 else 0) ∧
    hostAct .reset t = .next { State.reset with fault := s.fault } ∧
    ∃ u : State, hostAct .reset s = .next u ∧ hostAct .clearMemory u = .next { State.reset with fault := s.fault }

/-- 70_reset_and_hazards.md R203: a load, all or nothing. The refusal is the spec's decision D9, the least bad address
and that nothing is written are D14 (log 9). That a bad address overwrites a latch already set is the model's reading of
R175's assignment (log 4, DEDUCED). -/
def Obligations.LoadProgramWritesAllOrNothing : Prop :=
  ∀ (p : List (Int × Int)) (s : State), (p.map Prod.fst).Nodup →
    (∀ a ∈ p.map Prod.fst, (a < 0 ∨ 99 < a) → (∀ b ∈ p.map Prod.fst, (b < 0 ∨ 99 < b) → a ≤ b) →
      hostAct (.loadProgram p) s = .next { s with fault := some (.addressOutOfRange a) }) ∧
    ((∀ a ∈ p.map Prod.fst, 0 ≤ a ∧ a ≤ 99) → (∃ v ∈ p.map Prod.snd, v < -999 ∨ 999 < v) →
      ∃ v ∈ p.map Prod.snd, (v < -999 ∨ 999 < v) ∧ hostAct (.loadProgram p) s = .refused (.valueOutOfRange v)) ∧
    ((∀ c ∈ p, 0 ≤ c.1 ∧ c.1 ≤ 99 ∧ -999 ≤ c.2 ∧ c.2 ≤ 999) →
      ∃ t : State, hostAct (.loadProgram p) s = .next t ∧ t = { s with mem := t.mem } ∧
        (∀ c ∈ p, Memory.read t.mem c.1.toNat = c.2) ∧
        (∀ b : Nat, (b : Int) ∉ p.map Prod.fst → Memory.read t.mem b = Memory.read s.mem b))

/-- 70_reset_and_hazards.md R208, R209: reading a cell has no side effect but the fault of a bad address (D23), and
writing a cell is the load of a one-entry mapping (log 9). That a bad address overwrites a latch already set is the
model's reading of R175's assignment (log 4, DEDUCED). -/
def Obligations.CellAccessByTheHost : Prop :=
  (∀ (a : Nat) (s : State), a < 100 → hostReadCell a s = (some (Memory.read s.mem a), s)) ∧
  (∀ (addr : Int) (s : State), addr < 0 ∨ 99 < addr →
    hostReadCell addr s = (none, { s with fault := some (.addressOutOfRange addr) })) ∧
  ∀ (addr v : Int) (s : State), hostAct (.writeCell addr v) s = hostAct (.loadProgram [(addr, v)]) s

/-- 70_reset_and_hazards.md R206: the host writes the run latch, and that is the only way it becomes true: no other host
operation, no step and no run sets it. Once it is false, a run executes no step and leaves `pc` where it is: that clause is
R99's loop, which tests first, the spec's decision D13 (log 11). -/
def Obligations.OnlyTheHostSetsTheRunLatch : Prop :=
  (∀ (b : Bool) (s : State), hostAct (.setRun b) s = .next { s with run := b }) ∧
  (∀ (n : Nat) (s : State), hostAct (.run n) { s with run := false } = .next { s with run := false }) ∧
  ∀ (op : HostOp) (s t : State), s.run = false → hostAct op s = .next t → t.run = true → op = .setRun true

/-- 70_reset_and_hazards.md R205, R207: setting the target and queueing a card change one component each, for every
natural and every integer (D11, D20; log 10). -/
def Obligations.SetTargetAndQueueCard : Prop :=
  (∀ (n : Nat) (s : State), hostAct (.setTarget n) s = .next { s with pc := n }) ∧
  ∀ (v : Int) (s : State), hostAct (.queueCard v) s = .next { s with inDeck := v :: s.inDeck }

/-- 10_state.md R26: cards are read in the order they were queued: after any queue of cards INP reads the first one, and
leaves what queueing the others alone would have left. -/
def Obligations.CardsAreReadInQueueOrder : Prop :=
  ∀ (v : Int) (cs : List Int) (a : Nat) (s : State), s.inDeck = [] → 0 < a → a < 100 → -999 ≤ v → v ≤ 999 →
    ∃ t : State, exec (.inp a) (hostPerform ((v :: cs).map .queueCard) s) = .next t ∧
      Memory.read t.mem a = v ∧ t.inDeck = (hostPerform (cs.map .queueCard) s).inDeck

/-! ## The run loop -/

/-- 40_step_cycle.md R99 (the spec's decision D13, log 11): a run that is not running executes nothing, and once a run
has ended a larger budget changes nothing. -/
def Obligations.RunStopsAtItsEnd : Prop :=
  (∀ (n : Nat) (s : State), (s.run = false ∨ s.fault ≠ none) → runLoop n s = .next s) ∧
  ∀ (n m : Nat) (s t : State), runLoop n s = .next t → (t.run = false ∨ t.fault ≠ none) → n ≤ m →
    runLoop m s = .next t

/-- 40_step_cycle.md R100 (D13, log 11): a run that started running and halted has executed an HRS last, and `pc` holds
its address field. -/
def Obligations.HaltedRunEndedInHrs : Prop :=
  ∀ (n : Nat) (s t : State), s.run = true → s.fault = none → runLoop n s = .next t → t.run = false →
    t.fault = none →
    ∃ (k : Nat) (u : State) (a : Nat), k < n ∧ runLoop k s = .next u ∧ u.run = true ∧ u.fault = none ∧
      step u = .next t ∧ decode (Memory.read u.mem u.pc) = .ok (.hrs a) ∧ t.pc = a
end

