-- ==== Sys2Proof/Laws/Params.lean ====
section
/-! SUPPORT. The configuration's values and ranges as arithmetic (spec/00_scope.md R6). -/

namespace Sys2Proof

@[simp] theorem config_memSize : config.memSize = 100 := rfl
@[simp] theorem config_cellMin : config.cellMin = -999 := rfl
@[simp] theorem config_cellMax : config.cellMax = 999 := rfl
@[simp] theorem config_opDiv : config.opDiv = 100 := rfl
@[simp] theorem config_nOpcodes : config.nOpcodes = 10 := rfl
@[simp] theorem config_sftDiv : config.sftDiv = 10 := rfl
@[simp] theorem config_accWindow : config.accWindow = 10000 := rfl
@[simp] theorem config_storeMod : config.storeMod = 1000 := rfl
@[simp] theorem config_retSlot : config.retSlot = 99 := rfl
@[simp] theorem config_retBase : config.retBase = 800 := rfl
@[simp] theorem config_noRet : config.noRet = 100 := rfl
@[simp] theorem config_guardAddr : config.guardAddr = 0 := rfl
@[simp] theorem config_emptyCard : config.emptyCard = 0 := rfl
@[simp] theorem config_initCell0 : config.initCell0 = 1 := rfl
@[simp] theorem config_initCell99 : config.initCell99 = 800 := rfl
@[simp] theorem config_cardMin : config.cardMin = -999 := rfl
@[simp] theorem config_cardMax : config.cardMax = 999 := rfl
@[simp] theorem config_sftSign : config.sftSign = .truncating := rfl
@[simp] theorem config_inp0Consumes : config.inp0Consumes = true := rfl
@[simp] theorem config_tacRecordsReturn : config.tacRecordsReturn = true := rfl

theorem addrInRange_iff {a : Int} : addrInRange a = true ↔ 0 ≤ a ∧ a ≤ 99 := by
  simp only [addrInRange, Bool.and_eq_true, decide_eq_true_eq]; simp; omega

theorem addrInRange_natCast {a : Nat} : addrInRange a = true ↔ a < 100 := by
  rw [addrInRange_iff]; omega

theorem addrInRange_false_iff {a : Int} : addrInRange a = false ↔ a < 0 ∨ 99 < a := by
  rw [← Bool.not_eq_true, addrInRange_iff]; omega

theorem cellInRange_iff {v : Int} : cellInRange v = true ↔ -999 ≤ v ∧ v ≤ 999 := by
  simp only [cellInRange, Bool.and_eq_true, decide_eq_true_eq]; rfl

theorem cardInRange_iff {v : Int} : cardInRange v = true ↔ -999 ≤ v ∧ v ≤ 999 := by
  simp only [cardInRange, Bool.and_eq_true, decide_eq_true_eq]; rfl

/-- The power-on cells (R31). -/
theorem blankCell_eq (a : Nat) : blankCell a = if a = 0 then 1 else if a = 99 then 800 else 0 := rfl

/-- Every power-on value is one a cell may hold (R22, R31). -/
theorem blankCell_inRange (a : Nat) : cellInRange (blankCell a) = true := by
  rw [cellInRange_iff, blankCell_eq]; split
  · decide
  · split <;> decide

theorem addressOk_iff {a : Nat} : addressOk a = true ↔ a < 100 := by simp only [addressOk, decide_eq_true_eq]; rfl

theorem digitOk_iff {n : Nat} : digitOk n = true ↔ n < 10 := by simp only [digitOk, decide_eq_true_eq]; rfl

end Sys2Proof
end

