-- ==== Sys2Proof/Laws/Decode.lean ====
section
/-! SUPPORT. The decoder by its table: quotient and remainder of a word, and what the word of a table entry decodes to
(spec/30_encoding.md R71, R76). -/

namespace Sys2Proof

theorem opcodeOf_word {k a : Nat} (ha : a < 100) : opcodeOf ((100 * k + a : Nat) : Int) = k := by
  rw [opcodeOf, tdiv, config_opDiv, Int.tdiv_eq_ediv_of_nonneg (by omega)]; omega

theorem addressOf_word {k a : Nat} (ha : a < 100) : addressOf ((100 * k + a : Nat) : Int) = a := by
  rw [addressOf, tmod, config_opDiv, Int.tmod_eq_emod_of_nonneg (by omega)]; omega

/-- The word of a table entry decodes to the entry. -/
theorem decode_of_table {k a : Nat} {i : Instr} (hk : k < 10) (ha : a < 100) (h : handlerTable k a = some i) :
    decode ((100 * k + a : Nat) : Int) = .ok i := by
  unfold decode
  rw [opcodeOf_word ha, addressOf_word ha, if_neg (by simp; omega), if_neg (by omega)]
  simp [h]

/-- Every opcode digit has a table entry (R76). -/
theorem handlerTable_total {k : Nat} (hk : k < 10) (a : Nat) : ∃ i, handlerTable k a = some i := by
  interval_cases k <;> exact ⟨_, rfl⟩

/-- A table entry is the instruction of that opcode with that address field. -/
theorem handlerTable_fields {k a : Nat} {i : Instr} (hk : k < 10) (h : handlerTable k a = some i) :
    i.opcode = k ∧ i.addressField = a := by
  interval_cases k <;> simp only [handlerTable, Option.some.injEq] at h <;> subst h <;>
    refine ⟨rfl, ?_⟩ <;> simp [Instr.addressField, leftCount, rightCount]
  omega

end Sys2Proof
end

