-- ==== Sys2Proof/Laws/State.lean ====
section
/-! SUPPORT. One lemma per component per named update (spec/10_state.md R20), so that no later proof unfolds an update. -/

namespace Sys2Proof.Machine

section
variable (s : State) (v : Memory)
@[simp] theorem State.setMem_mem : (s.setMem v).mem = v := rfl
@[simp] theorem State.setMem_acc : (s.setMem v).acc = s.acc := rfl
@[simp] theorem State.setMem_flag : (s.setMem v).flag = s.flag := rfl
@[simp] theorem State.setMem_pc : (s.setMem v).pc = s.pc := rfl
@[simp] theorem State.setMem_inDeck : (s.setMem v).inDeck = s.inDeck := rfl
@[simp] theorem State.setMem_outDeck : (s.setMem v).outDeck = s.outDeck := rfl
@[simp] theorem State.setMem_run : (s.setMem v).run = s.run := rfl
@[simp] theorem State.setMem_steps : (s.setMem v).steps = s.steps := rfl
@[simp] theorem State.setMem_fault : (s.setMem v).fault = s.fault := rfl
end

section
variable (s : State) (v : Int)
@[simp] theorem State.setAcc_mem : (s.setAcc v).mem = s.mem := rfl
@[simp] theorem State.setAcc_acc : (s.setAcc v).acc = v := rfl
@[simp] theorem State.setAcc_flag : (s.setAcc v).flag = s.flag := rfl
@[simp] theorem State.setAcc_pc : (s.setAcc v).pc = s.pc := rfl
@[simp] theorem State.setAcc_inDeck : (s.setAcc v).inDeck = s.inDeck := rfl
@[simp] theorem State.setAcc_outDeck : (s.setAcc v).outDeck = s.outDeck := rfl
@[simp] theorem State.setAcc_run : (s.setAcc v).run = s.run := rfl
@[simp] theorem State.setAcc_steps : (s.setAcc v).steps = s.steps := rfl
@[simp] theorem State.setAcc_fault : (s.setAcc v).fault = s.fault := rfl
end

section
variable (s : State) (v : Bool)
@[simp] theorem State.setFlag_mem : (s.setFlag v).mem = s.mem := rfl
@[simp] theorem State.setFlag_acc : (s.setFlag v).acc = s.acc := rfl
@[simp] theorem State.setFlag_flag : (s.setFlag v).flag = v := rfl
@[simp] theorem State.setFlag_pc : (s.setFlag v).pc = s.pc := rfl
@[simp] theorem State.setFlag_inDeck : (s.setFlag v).inDeck = s.inDeck := rfl
@[simp] theorem State.setFlag_outDeck : (s.setFlag v).outDeck = s.outDeck := rfl
@[simp] theorem State.setFlag_run : (s.setFlag v).run = s.run := rfl
@[simp] theorem State.setFlag_steps : (s.setFlag v).steps = s.steps := rfl
@[simp] theorem State.setFlag_fault : (s.setFlag v).fault = s.fault := rfl
end

section
variable (s : State) (v : Nat)
@[simp] theorem State.setPc_mem : (s.setPc v).mem = s.mem := rfl
@[simp] theorem State.setPc_acc : (s.setPc v).acc = s.acc := rfl
@[simp] theorem State.setPc_flag : (s.setPc v).flag = s.flag := rfl
@[simp] theorem State.setPc_pc : (s.setPc v).pc = v := rfl
@[simp] theorem State.setPc_inDeck : (s.setPc v).inDeck = s.inDeck := rfl
@[simp] theorem State.setPc_outDeck : (s.setPc v).outDeck = s.outDeck := rfl
@[simp] theorem State.setPc_run : (s.setPc v).run = s.run := rfl
@[simp] theorem State.setPc_steps : (s.setPc v).steps = s.steps := rfl
@[simp] theorem State.setPc_fault : (s.setPc v).fault = s.fault := rfl
end

section
variable (s : State) (v : List Int)
@[simp] theorem State.setInDeck_mem : (s.setInDeck v).mem = s.mem := rfl
@[simp] theorem State.setInDeck_acc : (s.setInDeck v).acc = s.acc := rfl
@[simp] theorem State.setInDeck_flag : (s.setInDeck v).flag = s.flag := rfl
@[simp] theorem State.setInDeck_pc : (s.setInDeck v).pc = s.pc := rfl
@[simp] theorem State.setInDeck_inDeck : (s.setInDeck v).inDeck = v := rfl
@[simp] theorem State.setInDeck_outDeck : (s.setInDeck v).outDeck = s.outDeck := rfl
@[simp] theorem State.setInDeck_run : (s.setInDeck v).run = s.run := rfl
@[simp] theorem State.setInDeck_steps : (s.setInDeck v).steps = s.steps := rfl
@[simp] theorem State.setInDeck_fault : (s.setInDeck v).fault = s.fault := rfl
end

section
variable (s : State) (v : List Int)
@[simp] theorem State.setOutDeck_mem : (s.setOutDeck v).mem = s.mem := rfl
@[simp] theorem State.setOutDeck_acc : (s.setOutDeck v).acc = s.acc := rfl
@[simp] theorem State.setOutDeck_flag : (s.setOutDeck v).flag = s.flag := rfl
@[simp] theorem State.setOutDeck_pc : (s.setOutDeck v).pc = s.pc := rfl
@[simp] theorem State.setOutDeck_inDeck : (s.setOutDeck v).inDeck = s.inDeck := rfl
@[simp] theorem State.setOutDeck_outDeck : (s.setOutDeck v).outDeck = v := rfl
@[simp] theorem State.setOutDeck_run : (s.setOutDeck v).run = s.run := rfl
@[simp] theorem State.setOutDeck_steps : (s.setOutDeck v).steps = s.steps := rfl
@[simp] theorem State.setOutDeck_fault : (s.setOutDeck v).fault = s.fault := rfl
end

section
variable (s : State) (v : Bool)
@[simp] theorem State.setRun_mem : (s.setRun v).mem = s.mem := rfl
@[simp] theorem State.setRun_acc : (s.setRun v).acc = s.acc := rfl
@[simp] theorem State.setRun_flag : (s.setRun v).flag = s.flag := rfl
@[simp] theorem State.setRun_pc : (s.setRun v).pc = s.pc := rfl
@[simp] theorem State.setRun_inDeck : (s.setRun v).inDeck = s.inDeck := rfl
@[simp] theorem State.setRun_outDeck : (s.setRun v).outDeck = s.outDeck := rfl
@[simp] theorem State.setRun_run : (s.setRun v).run = v := rfl
@[simp] theorem State.setRun_steps : (s.setRun v).steps = s.steps := rfl
@[simp] theorem State.setRun_fault : (s.setRun v).fault = s.fault := rfl
end

section
variable (s : State) (v : Nat)
@[simp] theorem State.setSteps_mem : (s.setSteps v).mem = s.mem := rfl
@[simp] theorem State.setSteps_acc : (s.setSteps v).acc = s.acc := rfl
@[simp] theorem State.setSteps_flag : (s.setSteps v).flag = s.flag := rfl
@[simp] theorem State.setSteps_pc : (s.setSteps v).pc = s.pc := rfl
@[simp] theorem State.setSteps_inDeck : (s.setSteps v).inDeck = s.inDeck := rfl
@[simp] theorem State.setSteps_outDeck : (s.setSteps v).outDeck = s.outDeck := rfl
@[simp] theorem State.setSteps_run : (s.setSteps v).run = s.run := rfl
@[simp] theorem State.setSteps_steps : (s.setSteps v).steps = v := rfl
@[simp] theorem State.setSteps_fault : (s.setSteps v).fault = s.fault := rfl
end

section
variable (s : State) (v : Option Fault)
@[simp] theorem State.setFault_mem : (s.setFault v).mem = s.mem := rfl
@[simp] theorem State.setFault_acc : (s.setFault v).acc = s.acc := rfl
@[simp] theorem State.setFault_flag : (s.setFault v).flag = s.flag := rfl
@[simp] theorem State.setFault_pc : (s.setFault v).pc = s.pc := rfl
@[simp] theorem State.setFault_inDeck : (s.setFault v).inDeck = s.inDeck := rfl
@[simp] theorem State.setFault_outDeck : (s.setFault v).outDeck = s.outDeck := rfl
@[simp] theorem State.setFault_run : (s.setFault v).run = s.run := rfl
@[simp] theorem State.setFault_steps : (s.setFault v).steps = s.steps := rfl
@[simp] theorem State.setFault_fault : (s.setFault v).fault = v := rfl
end

section
variable (f : Fault) (s : State)
@[simp] theorem raiseFault_mem : (raiseFault f s).mem = s.mem := rfl
@[simp] theorem raiseFault_acc : (raiseFault f s).acc = s.acc := rfl
@[simp] theorem raiseFault_flag : (raiseFault f s).flag = s.flag := rfl
@[simp] theorem raiseFault_pc : (raiseFault f s).pc = s.pc := rfl
@[simp] theorem raiseFault_inDeck : (raiseFault f s).inDeck = s.inDeck := rfl
@[simp] theorem raiseFault_outDeck : (raiseFault f s).outDeck = s.outDeck := rfl
@[simp] theorem raiseFault_run : (raiseFault f s).run = s.run := rfl
@[simp] theorem raiseFault_steps : (raiseFault f s).steps = s.steps := rfl
@[simp] theorem raiseFault_fault : (raiseFault f s).fault = some f := rfl
end

/-- Two states with equal components are equal. -/
theorem State.eq_of_components {s t : State} (hmem : s.mem = t.mem) (hacc : s.acc = t.acc) (hflag : s.flag = t.flag)
    (hpc : s.pc = t.pc) (hin : s.inDeck = t.inDeck) (hout : s.outDeck = t.outDeck) (hrun : s.run = t.run)
    (hsteps : s.steps = t.steps) (hfault : s.fault = t.fault) : s = t := by
  cases s; cases t; simp_all

end Sys2Proof.Machine
end

