-- ==== Sys2Proof/Laws/Memory.lean ====
section
/-! SUPPORT. The laws of the memory list: a read after a write (spec/20_memory.md R52, R53), and that every operation
keeps the canonical form and the range of the cells (spec/10_state.md R22, R30). -/

namespace Sys2Proof.Machine

/-! ### Reads -/

@[simp] theorem Memory.read_nil (a : Nat) : Memory.read [] a = blankCell a := rfl

theorem Memory.read_cons (b : Nat) (w : Int) (m : Memory) (a : Nat) :
    Memory.read ((b, w) :: m) a = if a = b then w else Memory.read m a := rfl

theorem Memory.read_forget (m : Memory) (a b : Nat) :
    Memory.read (Memory.forget m a) b = if b = a then blankCell b else Memory.read m b := by
  induction m with
  | nil => simp [Memory.forget]
  | cons c m ih =>
    obtain ⟨k, w⟩ := c
    simp only [Memory.forget, Memory.read_cons]
    by_cases h : k = a
    · subst h; simp only [if_true, ih]; split <;> rfl
    · rw [if_neg h, Memory.read_cons, ih]
      by_cases hb : b = k
      · subst hb; simp [h]
      · simp [hb]

/-- An entry inserted into a list that has none for its cell. -/
theorem Memory.read_insert (m : Memory) (a : Nat) (v : Int) (hm : ∀ c ∈ m, c.1 ≠ a) (b : Nat) :
    Memory.read (Memory.insert m a v) b = if b = a then v else Memory.read m b := by
  induction m with
  | nil => simp [Memory.insert, Memory.read_cons]
  | cons c m ih =>
    obtain ⟨k, w⟩ := c
    simp only [Memory.insert]
    split
    · rw [Memory.read_cons]
    · have hk : k ≠ a := hm (k, w) (by simp)
      rw [Memory.read_cons, ih (fun c hc => hm c (by simp [hc])), Memory.read_cons]
      by_cases hb : b = k
      · subst hb; simp [hk]
      · simp [hb]

theorem Memory.forget_no_entry (m : Memory) (a : Nat) : ∀ c ∈ Memory.forget m a, c.1 ≠ a := by
  induction m with
  | nil => simp [Memory.forget]
  | cons c m ih =>
    obtain ⟨k, w⟩ := c
    simp only [Memory.forget]
    split
    · exact ih
    · rename_i h
      intro c hc
      rcases List.mem_cons.1 hc with rfl | hc
      · exact h
      · exact ih c hc

/-- A read after a write, of the same cell or of another; for every list, canonical or not. -/
theorem Memory.read_write (m : Memory) (a : Nat) (v : Int) (b : Nat) :
    Memory.read (Memory.write m a v) b = if b = a then v else Memory.read m b := by
  unfold Memory.write
  split
  · rename_i h
    rw [Memory.read_forget]
    split
    · rename_i hb; rw [hb, h]
    · rfl
  · rw [Memory.read_insert _ _ _ (Memory.forget_no_entry m a), Memory.read_forget]
    split <;> rfl

@[simp] theorem Memory.read_write_same (m : Memory) (a : Nat) (v : Int) :
    Memory.read (Memory.write m a v) a = v := by rw [Memory.read_write, if_pos rfl]

theorem Memory.read_write_other (m : Memory) {a b : Nat} (v : Int) (h : b ≠ a) :
    Memory.read (Memory.write m a v) b = Memory.read m b := by rw [Memory.read_write, if_neg h]

/-! ### The canonical form -/

theorem Memory.wfFrom_cons {lo a : Nat} {v : Int} {m : Memory} :
    Memory.wfFrom lo ((a, v) :: m) = true ↔
      lo ≤ a ∧ a < 100 ∧ v ≠ blankCell a ∧ Memory.wfFrom (a + 1) m = true := by
  simp [Memory.wfFrom, addrInRange_natCast, and_assoc]

theorem Memory.wfFrom_mono {m : Memory} {lo lo' : Nat} (h : lo' ≤ lo) (hm : Memory.wfFrom lo m = true) :
    Memory.wfFrom lo' m = true := by
  cases m with
  | nil => rfl
  | cons c m =>
    obtain ⟨a, v⟩ := c
    rw [Memory.wfFrom_cons] at hm ⊢
    exact ⟨by omega, hm.2⟩

theorem Memory.wfFrom_forget {m : Memory} {lo : Nat} (a : Nat) (hm : Memory.wfFrom lo m = true) :
    Memory.wfFrom lo (Memory.forget m a) = true := by
  induction m generalizing lo with
  | nil => rfl
  | cons c m ih =>
    obtain ⟨b, w⟩ := c
    rw [Memory.wfFrom_cons] at hm
    simp only [Memory.forget]
    split
    · exact Memory.wfFrom_mono (by omega) (ih hm.2.2.2)
    · exact Memory.wfFrom_cons.2 ⟨hm.1, hm.2.1, hm.2.2.1, ih hm.2.2.2⟩

theorem Memory.wfFrom_insert {m : Memory} {lo a : Nat} {v : Int} (hlo : lo ≤ a) (ha : a < 100)
    (hv : v ≠ blankCell a) (hm : Memory.wfFrom lo m = true) (hno : ∀ c ∈ m, c.1 ≠ a) :
    Memory.wfFrom lo (Memory.insert m a v) = true := by
  induction m generalizing lo with
  | nil => exact Memory.wfFrom_cons.2 ⟨hlo, ha, hv, rfl⟩
  | cons c m ih =>
    obtain ⟨b, w⟩ := c
    have hb : b ≠ a := hno (b, w) (by simp)
    have hm' := Memory.wfFrom_cons.1 hm
    simp only [Memory.insert]
    split
    · rename_i hlt
      exact Memory.wfFrom_cons.2 ⟨hlo, ha, hv, Memory.wfFrom_cons.2 ⟨by omega, hm'.2⟩⟩
    · exact Memory.wfFrom_cons.2
        ⟨hm'.1, hm'.2.1, hm'.2.2.1, ih (by omega) hm'.2.2.2 fun c hc => hno c (by simp [hc])⟩

/-- A write to a cell keeps the canonical form. -/
theorem Memory.wf_write {m : Memory} {a : Nat} (v : Int) (ha : a < 100) (hm : Memory.wf m = true) :
    Memory.wf (Memory.write m a v) = true := by
  unfold Memory.write
  split
  · exact Memory.wfFrom_forget a hm
  · rename_i hv
    exact Memory.wfFrom_insert (Nat.zero_le a) ha hv (Memory.wfFrom_forget a hm) (Memory.forget_no_entry m a)

/-- The power-on memory is canonical. -/
theorem Memory.wf_reset : Memory.wf State.reset.mem = true := rfl

/-- In a canonical list no entry stands for a cell below its bound, so such a cell reads as at power-on. -/
theorem Memory.read_below {m : Memory} {lo a : Nat} (hm : Memory.wfFrom lo m = true) (h : a < lo) :
    Memory.read m a = blankCell a := by
  induction m generalizing lo with
  | nil => rfl
  | cons c m ih =>
    obtain ⟨b, w⟩ := c
    rw [Memory.wfFrom_cons] at hm
    rw [Memory.read_cons, if_neg (by omega)]
    exact ih hm.2.2.2 (by omega)

/-! ### The range of the cells -/

theorem Memory.cellsInRange_cons {c : Nat × Int} {m : Memory} :
    Memory.cellsInRange (c :: m) = true ↔ cellInRange c.2 = true ∧ Memory.cellsInRange m = true := by
  simp [Memory.cellsInRange]

theorem Memory.cellsInRange_forget {m : Memory} (a : Nat) (hm : Memory.cellsInRange m = true) :
    Memory.cellsInRange (Memory.forget m a) = true := by
  induction m with
  | nil => rfl
  | cons c m ih =>
    rw [Memory.cellsInRange_cons] at hm
    simp only [Memory.forget]
    split
    · exact ih hm.2
    · exact Memory.cellsInRange_cons.2 ⟨hm.1, ih hm.2⟩

theorem Memory.cellsInRange_insert {m : Memory} (a : Nat) {v : Int} (hv : cellInRange v = true)
    (hm : Memory.cellsInRange m = true) : Memory.cellsInRange (Memory.insert m a v) = true := by
  induction m with
  | nil => exact Memory.cellsInRange_cons.2 ⟨hv, rfl⟩
  | cons c m ih =>
    simp only [Memory.insert]
    split
    · exact Memory.cellsInRange_cons.2 ⟨hv, hm⟩
    · rw [Memory.cellsInRange_cons] at hm
      exact Memory.cellsInRange_cons.2 ⟨hm.1, ih hm.2⟩

/-- Writing a value in range keeps every cell in range (R22). -/
theorem Memory.cellsInRange_write {m : Memory} (a : Nat) {v : Int} (hv : cellInRange v = true)
    (hm : Memory.cellsInRange m = true) : Memory.cellsInRange (Memory.write m a v) = true := by
  unfold Memory.write
  split
  · exact Memory.cellsInRange_forget a hm
  · exact Memory.cellsInRange_insert a hv (Memory.cellsInRange_forget a hm)

/-- Every cell of a memory in range reads as a value in range (R22). -/
theorem Memory.read_inRange {m : Memory} (hm : Memory.cellsInRange m = true) (a : Nat) :
    cellInRange (Memory.read m a) = true := by
  induction m with
  | nil => exact blankCell_inRange a
  | cons c m ih =>
    obtain ⟨b, w⟩ := c
    rw [Memory.cellsInRange_cons] at hm
    rw [Memory.read_cons]
    split
    · exact hm.1
    · exact ih hm.2

end Sys2Proof.Machine
end

