-- ==== Sys2Proof/Laws/Ops.lean ====
section
/-! SUPPORT. What each shared operation answers, once: the access primitives (spec/20_memory.md R52, R53), the operand
forms, the card reader (spec/41_io.md R110), the jump operation (spec/44_control.md R151) and the shifts. -/

namespace Sys2Proof.Machine

/-! ### The access primitives -/

theorem memRead_cell {a : Nat} (ha : a < 100) (s : State) : memRead a s = .ok (Memory.read s.mem a) := by
  simp [memRead, addrInRange_natCast.2 ha]

theorem memRead_outside {a : Int} (ha : a < 0 ∨ 99 < a) (s : State) :
    memRead a s = .error (.addressOutOfRange a) := by
  simp [memRead, addrInRange_false_iff.2 ha]

theorem memWrite_cell {a : Nat} (ha : a < 100) (v : Int) (s : State) :
    memWrite a v s = .ok (s.setMem (Memory.write s.mem a v)) := by
  simp [memWrite, addrInRange_natCast.2 ha]

theorem memWrite_outside {a : Int} (ha : a < 0 ∨ 99 < a) (v : Int) (s : State) :
    memWrite a v s = .error (.addressOutOfRange a) := by
  simp [memWrite, addrInRange_false_iff.2 ha]

/-! ### Settling, and the operand forms -/

@[simp] theorem settle_ok (s t : State) : settle s (.ok t) = .next t := rfl

@[simp] theorem settle_error (s : State) (f : Fault) : settle s (.error f) = .next (raiseFault f s) := rfl

/-- A handler that ends by settling always answers a next state. -/
theorem settle_next (s : State) (r : Except Fault State) : ∃ t, settle s r = .next t := by
  cases r <;> exact ⟨_, rfl⟩

theorem withCell_cell {a : Nat} (ha : a < 100) (s : State) (k : Int → State) :
    withCell a s k = .next (k (Memory.read s.mem a)) := by
  simp [withCell, memRead_cell ha, Except.map]

@[simp] theorem storeTo_none (v : Int) (s : State) : storeTo none v s = .ok s := rfl

theorem storeTo_cell {b : Nat} (hb : b < 100) (v : Int) (s : State) :
    storeTo (some b) v s = .ok (s.setMem (Memory.write s.mem b v)) := memWrite_cell hb v s

theorem inpDestination_eq (a : Nat) : inpDestination a = if a = 0 then none else some a := rfl

theorem returnSlot_eq (a : Nat) : returnSlot a = if a = 100 then none else some 99 := rfl

theorem returnWord_eq (pc : Nat) : returnWord pc = 800 + pc := rfl

theorem stoValue_eq (acc : Int) : stoValue acc = tmod acc 1000 := rfl

/-- What STO stores is a value a cell may hold (R121, R22). -/
theorem stoValue_inRange (acc : Int) : cellInRange (stoValue acc) = true := by
  rw [cellInRange_iff, stoValue_eq]
  have h1 := Int.tmod_lt_of_pos acc (show (0 : Int) < 1000 by decide)
  have h2 : -1000 < Int.tmod acc 1000 := Int.lt_tmod_of_pos acc (by decide)
  simp only [tmod]; omega

/-- The jump operation (R151). -/
theorem jump_eq (a : Nat) (s : State) :
    jump a s = .next ((if a = 100 then s else s.setMem (Memory.write s.mem 99 (800 + s.pc))).setPc a) := by
  unfold jump
  rw [returnSlot_eq, returnWord_eq]
  split
  · rfl
  · rw [storeTo_cell (by decide)]; rfl

/-! ### The card reader -/

theorem takeCard_empty {s : State} (h : s.inDeck = []) : takeCard s = (s, .ok 0) := by
  simp [takeCard, h]

theorem takeCard_tail {s : State} {cards : List Int} {v : Int} (h : s.inDeck = cards ++ [v]) :
    takeCard s = (s.setInDeck cards, if cardInRange v then .ok v else .error (.malformedInputValue v)) := by
  simp [takeCard, h]

/-- A deck is empty or has a tail card. -/
theorem deck_cases (d : List Int) : d = [] ∨ ∃ cards v, d = cards ++ [v] := by
  rcases List.eq_nil_or_concat d with h | ⟨cards, v, h⟩
  · exact .inl h
  · exact .inr ⟨cards, v, by simpa using h⟩

/-! ### The shifts -/

theorem shiftLeft_eq (n : Nat) (t : Int) : shiftLeft n t = t * 10 ^ n := by
  induction n generalizing t with
  | zero => simp [shiftLeft]
  | succ k ih => rw [shiftLeft, ih]; simp [pow_succ]; ring

theorem accWindow_eq (t : Int) : accWindow t = tmod t 10000 := rfl

theorem shiftRight_succ (n : Nat) (t : Int) : shiftRight (n + 1) t = shiftRight n (tdiv t 10) := rfl

/-- The right shift divides a non-negative value by a power of ten. -/
theorem shiftRight_nonneg (n m : Nat) : shiftRight n (m : Int) = ((m / 10 ^ n : Nat) : Int) := by
  induction n generalizing m with
  | zero => simp [shiftRight]
  | succ k ih =>
    have h : tdiv (m : Int) 10 = ((m / 10 : Nat) : Int) := rfl
    rw [shiftRight_succ, h, ih, Nat.div_div_eq_div_mul, pow_succ, Nat.mul_comm 10]

/-- The right shift keeps the sign, as truncation does (D6, log 6). -/
theorem shiftRight_neg (n : Nat) (t : Int) : shiftRight n (-t) = -shiftRight n t := by
  induction n generalizing t with
  | zero => rfl
  | succ k ih => rw [shiftRight_succ, shiftRight_succ, tdiv, Int.neg_tdiv, ih]

/-- The window keeps the sign, as truncation does (D6, log 6). -/
theorem accWindow_neg (t : Int) : accWindow (-t) = -accWindow t := by
  rw [accWindow_eq, accWindow_eq, tmod, Int.neg_tmod]

end Sys2Proof.Machine
end

