-- ==== Sys2Proof/Laws/HostInterface.lean ====
section
/-! SUPPORT. The tests of a program load (spec/70_reset_and_hazards.md R203), what a load can do, and the induction
over a run (spec/40_step_cycle.md R99), and that the operations of a launch give R214's clean launch and no other state. -/

namespace Sys2Proof.Machine

theorem leastBadAddress_none {p : List (Int × Int)} :
    leastBadAddress p = none ↔ ∀ c ∈ p, addrInRange c.1 = true := by
  induction p with
  | nil => simp [leastBadAddress]
  | cons c p ih =>
    obtain ⟨a, v⟩ := c
    simp only [leastBadAddress]
    split
    · rename_i h; rw [ih]; simp [h]
    · rename_i h; split <;> simp [h]

/-- The address a load's fault carries: one of the mapping's, outside 0..99, and no larger than any other such. -/
theorem leastBadAddress_some {p : List (Int × Int)} {x : Int} (h : leastBadAddress p = some x) :
    (∃ c ∈ p, c.1 = x) ∧ addrInRange x = false ∧ ∀ c ∈ p, addrInRange c.1 = false → x ≤ c.1 := by
  induction p generalizing x with
  | nil => cases h
  | cons c p ih =>
    obtain ⟨a, v⟩ := c
    simp only [leastBadAddress] at h
    split at h
    · rename_i ha
      obtain ⟨⟨c, h1, h2⟩, h3, h4⟩ := ih h
      refine ⟨⟨c, by simp [h1], h2⟩, h3, fun d hd hda => ?_⟩
      rcases List.mem_cons.1 hd with rfl | hd
      · simp [ha] at hda
      · exact h4 d hd hda
    · rename_i ha
      split at h
      · rename_i hn
        cases h
        refine ⟨⟨_, List.mem_cons_self, rfl⟩, by simpa using ha, fun d hd hda => ?_⟩
        rcases List.mem_cons.1 hd with rfl | hd
        · exact le_refl _
        · rw [leastBadAddress_none] at hn; rw [hn d hd] at hda; cases hda
      · rename_i b hb
        obtain ⟨⟨c, h1, h2⟩, h3, h4⟩ := ih hb
        cases h
        split
        · rename_i hab
          refine ⟨⟨_, List.mem_cons_self, rfl⟩, by simpa using ha, fun d hd hda => ?_⟩
          rcases List.mem_cons.1 hd with rfl | hd
          · exact le_refl _
          · exact le_trans hab (h4 d hd hda)
        · rename_i hab
          refine ⟨⟨c, by simp [h1], h2⟩, h3, fun d hd hda => ?_⟩
          rcases List.mem_cons.1 hd with rfl | hd
          · simp only; omega
          · exact h4 d hd hda

theorem firstBadValue_none {p : List (Int × Int)} :
    firstBadValue p = none ↔ ∀ c ∈ p, cellInRange c.2 = true := by
  induction p with
  | nil => simp [firstBadValue]
  | cons c p ih =>
    obtain ⟨a, v⟩ := c
    simp only [firstBadValue]
    split
    · rename_i h; rw [ih]; simp [h]
    · rename_i h; simp [h]

theorem firstBadValue_some {p : List (Int × Int)} {x : Int} (h : firstBadValue p = some x) :
    ∃ c ∈ p, c.2 = x ∧ cellInRange x = false := by
  induction p with
  | nil => cases h
  | cons c p ih =>
    obtain ⟨a, v⟩ := c
    simp only [firstBadValue] at h
    split at h
    · obtain ⟨c, h1, h2⟩ := ih h; exact ⟨c, by simp [h1], h2⟩
    · rename_i hv; cases h; exact ⟨_, List.mem_cons_self, rfl, by simpa using hv⟩

/-- A list with distinct addresses is a mapping. -/
theorem firstRepeated_of_nodup {p : List (Int × Int)} : (p.map Prod.fst).Nodup → firstRepeated p = none := by
  induction p with
  | nil => simp [firstRepeated]
  | cons c p ih =>
    obtain ⟨a, v⟩ := c
    simp only [firstRepeated, List.map_cons, List.nodup_cons]
    rintro ⟨h1, h2⟩
    rw [if_neg, ih h2]
    simp only [List.any_eq_true, not_exists, not_and]
    intro c hc hca
    exact h1 (List.mem_map.2 ⟨c, hc, by simpa using hca⟩)

/-- A load that answers a next state latched a fault, or wrote cells and values all of which are in range. -/
theorem hostLoadProgram_cases {p : List (Int × Int)} {s t : State} (h : hostLoadProgram p s = .next t) :
    (∃ a, t = raiseFault (.addressOutOfRange a) s) ∨
    ((∀ c ∈ p, addrInRange c.1 = true ∧ cellInRange c.2 = true) ∧ t = s.setMem (writeCells p s.mem)) := by
  unfold hostLoadProgram at h
  split at h
  · cases h
  · split at h
    · cases h; exact .inl ⟨_, rfl⟩
    · rename_i hb
      split at h
      · cases h
      · rename_i hv
        cases h
        exact .inr ⟨fun c hc => ⟨leastBadAddress_none.1 hb c hc, firstBadValue_none.1 hv c hc⟩, rfl⟩

/-- The writes of a load keep the memory canonical and its cells in range. -/
theorem writeCells_keeps {p : List (Int × Int)} {m : Memory}
    (hp : ∀ c ∈ p, addrInRange c.1 = true ∧ cellInRange c.2 = true)
    (hwf : Memory.wf m = true) (hr : Memory.cellsInRange m = true) :
    Memory.wf (writeCells p m) = true ∧ Memory.cellsInRange (writeCells p m) = true := by
  induction p generalizing m with
  | nil => exact ⟨hwf, hr⟩
  | cons c p ih =>
    obtain ⟨a, v⟩ := c
    have hc := hp (a, v) (by simp)
    have ha := addrInRange_iff.1 hc.1
    have ha : a.toNat < 100 := by simp only at ha; omega
    exact ih (fun c hc => hp c (by simp [hc])) (Memory.wf_write v ha hwf) (Memory.cellsInRange_write _ hc.2 hr)

/-- The writes of a load change no cell they do not name. -/
theorem writeCells_read_other {p : List (Int × Int)} {m : Memory} (hp : ∀ c ∈ p, addrInRange c.1 = true) {b : Nat}
    (hb : (b : Int) ∉ p.map Prod.fst) : Memory.read (writeCells p m) b = Memory.read m b := by
  induction p generalizing m with
  | nil => rfl
  | cons c p ih =>
    obtain ⟨a, v⟩ := c
    simp only [List.map_cons, List.mem_cons, not_or] at hb
    have ha := addrInRange_iff.1 (hp (a, v) (by simp))
    simp only at ha hb
    rw [writeCells, ih (fun c hc => hp c (by simp [hc])) hb.2, Memory.read_write_other _ _ (by omega)]

/-- The writes of a load leave the mapping's values, its addresses being distinct. -/
theorem writeCells_read {p : List (Int × Int)} {m : Memory} (hd : (p.map Prod.fst).Nodup)
    (hp : ∀ c ∈ p, addrInRange c.1 = true) {c : Int × Int} (hc : c ∈ p) :
    Memory.read (writeCells p m) c.1.toNat = c.2 := by
  induction p generalizing m with
  | nil => cases hc
  | cons d p ih =>
    obtain ⟨a, v⟩ := d
    rw [List.map_cons, List.nodup_cons] at hd
    have hp' : ∀ c ∈ p, addrInRange c.1 = true := fun c hc => hp c (by simp [hc])
    rcases List.mem_cons.1 hc with rfl | hc
    · have ha := addrInRange_iff.1 (hp (a, v) (by simp))
      simp only at ha ⊢
      have ht : ((a.toNat : Nat) : Int) = a := by omega
      rw [writeCells, writeCells_read_other hp' (by rw [ht]; exact hd.1), Memory.read_write_same]
    · exact ih hd.2 hp' hc

/-- A load of a program's mapping is accepted. -/
theorem hostLoadProgram_of_isProgram {p : List (Int × Int)} (hp : IsProgram p) (s : State) :
    hostLoadProgram p s = .next (s.setMem (writeCells p s.mem)) := by
  simp only [hostLoadProgram, firstRepeated_of_nodup hp.1, leastBadAddress_none.2 fun c hc => (hp.2 c hc).1,
    firstBadValue_none.2 fun c hc => (hp.2 c hc).2]

/-! ### A clean launch (R214) -/

/-- The image of a program is a canonical memory with every cell in range. -/
theorem programImage_good {p : List (Int × Int)} (hp : IsProgram p) :
    Memory.wf (programImage p) = true ∧ Memory.cellsInRange (programImage p) = true :=
  writeCells_keeps hp.2 Memory.wf_reset rfl

/-- A cell the mapping does not name reads as at power-on (R31). -/
theorem programImage_read_other {p : List (Int × Int)} (hp : IsProgram p) {b : Nat}
    (hb : (b : Int) ∉ p.map Prod.fst) : Memory.read (programImage p) b = blankCell b :=
  writeCells_read_other (fun c hc => (hp.2 c hc).1) hb

/-- A cell the mapping names reads as the mapping's value. -/
theorem programImage_read {p : List (Int × Int)} (hp : IsProgram p) {c : Int × Int} (hc : c ∈ p) :
    Memory.read (programImage p) c.1.toNat = c.2 :=
  writeCells_read hp.1 (fun c hc => (hp.2 c hc).1) hc

/-- Queueing cards in reading order puts the first one at the tail, before whatever the deck held (R207). -/
theorem hostPerform_queueCards (cards : List Int) (rest : List HostOp) (s : State) :
    hostPerform (cards.map .queueCard ++ rest) s = hostPerform rest (s.setInDeck (cards.reverse ++ s.inDeck)) := by
  induction cards generalizing s with
  | nil => rfl
  | cons v cards ih =>
    simp only [List.map_cons, List.cons_append, hostPerform, hostAct, hostQueueCard, queueCard, ih]
    simp [State.setInDeck]

/-- The operations of a launch give a clean launch, from any state. -/
theorem launchOps_cleanLaunch {p : List (Int × Int)} (hp : IsProgram p) (cards : List Int) (entry : Nat) (s : State) :
    (hostPerform (launchOps p cards entry) s).CleanLaunch p cards entry := by
  have h : hostPerform (launchOps p cards entry) s =
      { State.reset with mem := programImage p, inDeck := cards.reverse ++ [], pc := entry, run := true } := by
    simp only [launchOps, List.cons_append, List.nil_append, hostPerform, hostAct, hostConstruct,
      hostLoadProgram_of_isProgram hp, hostPerform_queueCards]
    rfl
  rw [h, List.append_nil]
  exact ⟨hp, rfl, rfl, rfl, rfl, rfl, rfl, rfl, rfl, rfl⟩

/-- The premises leave nothing open: one program, one list of cards and one entry have one clean launch. -/
theorem State.CleanLaunch.unique {p : List (Int × Int)} {cards : List Int} {entry : Nat} {s t : State}
    (hs : s.CleanLaunch p cards entry) (ht : t.CleanLaunch p cards entry) : s = t := by
  obtain ⟨mem, acc, flag, pc, inDeck, outDeck, run, steps, fault⟩ := s
  obtain ⟨-, h1, h2, h3, h4, h5, h6, h7, h8, h9⟩ := hs
  obtain ⟨-, k1, k2, k3, k4, k5, k6, k7, k8, k9⟩ := ht
  cases t
  simp_all

/-- A clean launch is a good state within the accumulator's bound. -/
theorem State.CleanLaunch.good {p : List (Int × Int)} {cards : List Int} {entry : Nat} {s : State}
    (h : s.CleanLaunch p cards entry) : s.Good ∧ s.AccBounded := by
  have hm := programImage_good h.program
  rw [← h.memory] at hm
  exact ⟨⟨hm.1, hm.2, by rw [h.nothingPutOut]; rfl⟩, by simp [State.AccBounded, h.accZero]⟩

/-! ### Runs -/

/-- What every step keeps, every run keeps. -/
theorem runLoop_keeps (P : State → Prop) (hP : ∀ s t, P s → step s = .next t → P t) {n : Nat} {s t : State}
    (h0 : P s) (h : runLoop n s = .next t) : P t := by
  induction n generalizing s with
  | zero => cases h; exact h0
  | succ k ih =>
    simp only [runLoop] at h
    split at h
    · cases hs : step s with
      | next u => rw [hs] at h; exact ih (hP s u h0 hs) h
      | fault f => rw [hs] at h; cases h
      | refused r => rw [hs] at h; cases h
    · cases h; exact h0

end Sys2Proof.Machine
end

