-- ==== Sys2Proof/Laws/PerInstr.lean ====
section
/-! SUPPORT. Statements made per instruction. `OpcodeRange`: the word of a well-formed instruction lies in the word range
of its row of spec/opcode_table.json (spec/30_encoding.md R76). -/

namespace Sys2Proof.Laws.OpcodeRange

/-- `100 * opcode <= encode i <= 100 * opcode + 99`. -/
def Statement (i : Instr) : Prop :=
  i.wellFormed = true → (100 * i.opcode : Int) ≤ encode i ∧ encode i ≤ 100 * i.opcode + 99

/-- An address field below 100 stays in the row's range. -/
theorem field_in_row (op a : Nat) (h : a < 100) :
    (100 * op : Int) ≤ ((100 * op + a : Nat) : Int) ∧ ((100 * op + a : Nat) : Int) ≤ 100 * op + 99 := by
  omega

theorem inp (a : Nat) : Statement (.inp a) := fun h => field_in_row 0 a (addressOk_iff.1 h)
theorem cla (a : Nat) : Statement (.cla a) := fun h => field_in_row 1 a (addressOk_iff.1 h)
theorem add (a : Nat) : Statement (.add a) := fun h => field_in_row 2 a (addressOk_iff.1 h)
theorem tac (a : Nat) : Statement (.tac a) := fun h => field_in_row 3 a (addressOk_iff.1 h)
theorem sft (l r : Nat) : Statement (.sft l r) := fun h => by
  simp only [Instr.wellFormed, Bool.and_eq_true, digitOk_iff] at h
  exact field_in_row 4 (10 * l + r) (by omega)
theorem out (a : Nat) : Statement (.out a) := fun h => field_in_row 5 a (addressOk_iff.1 h)
theorem sto (a : Nat) : Statement (.sto a) := fun h => field_in_row 6 a (addressOk_iff.1 h)
theorem sub (a : Nat) : Statement (.sub a) := fun h => field_in_row 7 a (addressOk_iff.1 h)
theorem jmp (a : Nat) : Statement (.jmp a) := fun h => field_in_row 8 a (addressOk_iff.1 h)
theorem hrs (a : Nat) : Statement (.hrs a) := fun h => field_in_row 9 a (addressOk_iff.1 h)

end Sys2Proof.Laws.OpcodeRange
end

