-- ==== Sys2Proof/Laws/Step.lean ====
section
/-! SUPPORT. Everything one step can do, once (spec/40_step_cycle.md R90): the inversion of `step`. -/

namespace Sys2Proof.Machine

section
variable (s : State)
@[simp] theorem advance_mem : (advance s).mem = s.mem := rfl
@[simp] theorem advance_acc : (advance s).acc = s.acc := rfl
@[simp] theorem advance_flag : (advance s).flag = s.flag := rfl
@[simp] theorem advance_pc : (advance s).pc = s.pc + 1 := rfl
@[simp] theorem advance_inDeck : (advance s).inDeck = s.inDeck := rfl
@[simp] theorem advance_outDeck : (advance s).outDeck = s.outDeck := rfl
@[simp] theorem advance_run : (advance s).run = s.run := rfl
@[simp] theorem advance_steps : (advance s).steps = s.steps := rfl
@[simp] theorem advance_fault : (advance s).fault = s.fault := rfl
end

/-- The state a completed or faulted handler leaves after the count (R97). -/
def counted (u : State) : State := if u.fault = none then u.setSteps (u.steps + 1) else u

@[simp] theorem countStep_next (u : State) : countStep (.next u) = .next (counted u) := rfl

/-- The four ways a step answers a next state: the engine is faulted already; the fetch faults; the word is rejected;
or the decoded instruction's handler runs in the advanced state and is counted. -/
theorem step_cases {s t : State} (h : step s = .next t) :
    (s.fault ≠ none ∧ t = s) ∨
    (s.fault = none ∧ 99 < s.pc ∧ t = raiseFault (.addressOutOfRange s.pc) s) ∨
    (s.fault = none ∧ s.pc < 100 ∧ ∃ e, decode (Memory.read s.mem s.pc) = .error e ∧
      t = raiseFault (decodeFault e) (advance s)) ∨
    (s.fault = none ∧ s.pc < 100 ∧ ∃ i u, decode (Memory.read s.mem s.pc) = .ok i ∧
      exec i (advance s) = .next u ∧ t = counted u) := by
  unfold step at h
  split at h
  · rename_i hf; cases h; exact .inl ⟨hf, rfl⟩
  · rename_i hf
    have hf : s.fault = none := not_not.1 hf
    by_cases hpc : s.pc < 100
    · rw [fetchWord, memRead_cell hpc] at h
      cases hd : decode (Memory.read s.mem s.pc) with
      | error e =>
        simp only [hd] at h; cases h
        exact .inr (.inr (.inl ⟨hf, hpc, e, rfl, rfl⟩))
      | ok i =>
        simp only [hd] at h
        cases he : exec i (advance s) with
        | next u =>
          rw [he, countStep_next] at h; cases h
          exact .inr (.inr (.inr ⟨hf, hpc, i, u, rfl, he, rfl⟩))
        | fault f => rw [he] at h; cases h
        | refused r => rw [he] at h; cases h
    · rw [fetchWord, memRead_outside (by omega)] at h; cases h
      exact .inr (.inl ⟨hf, by omega, rfl⟩)

end Sys2Proof.Machine
end

