-- ==== Sys2Proof/Tests/Slice0.lean ====
section
/-! SUPPORT. Tests with results from spec/95_test_vectors.md (the vector is named at each) or worked by hand from the
cited rule, the WellFormed smoke test, and the witnesses of the obligations' hypotheses. -/

namespace Sys2Proof.Tests

open Sys2Proof Sys2Proof.Machine

/-- The start state of 95's section 2: power-on memory with the word at cell 10, and `pc = 10`. -/
def vec (w : Int) : State := { State.reset with mem := Memory.write [] 10 w, pc := 10 }

/-- A start state with cell 50 set too. -/
def vec50 (w v : Int) : State := { vec w with mem := Memory.write (Memory.write [] 10 w) 50 v }

/-- What one step leaves, seen through `f`. -/
def seen {α : Type} (o : Host.Outcome State Fault Refusal) (f : State → α) : Option α :=
  match o with
  | .next t => some (f t)
  | .fault _ => none
  | .refused _ => none

/-! ### WellFormed: an ill-formed term for each check, and the largest well-formed one -/

theorem test_inp_illformed : (Instr.inp 100).wellFormed = false ∧ (Instr.inp 99).wellFormed = true := by decide
theorem test_cla_illformed : (Instr.cla 100).wellFormed = false ∧ (Instr.cla 99).wellFormed = true := by decide
theorem test_add_illformed : (Instr.add 100).wellFormed = false ∧ (Instr.add 99).wellFormed = true := by decide
theorem test_tac_illformed : (Instr.tac 100).wellFormed = false ∧ (Instr.tac 99).wellFormed = true := by decide
theorem test_sft_left_illformed : (Instr.sft 10 0).wellFormed = false ∧ (Instr.sft 9 9).wellFormed = true := by decide
theorem test_sft_right_illformed : (Instr.sft 0 10).wellFormed = false ∧ (Instr.sft 0 9).wellFormed = true := by decide
theorem test_out_illformed : (Instr.out 100).wellFormed = false ∧ (Instr.out 99).wellFormed = true := by decide
theorem test_sto_illformed : (Instr.sto 100).wellFormed = false ∧ (Instr.sto 99).wellFormed = true := by decide
theorem test_sub_illformed : (Instr.sub 100).wellFormed = false ∧ (Instr.sub 99).wellFormed = true := by decide
theorem test_jmp_illformed : (Instr.jmp 100).wellFormed = false ∧ (Instr.jmp 99).wellFormed = true := by decide
theorem test_hrs_illformed : (Instr.hrs 100).wellFormed = false ∧ (Instr.hrs 99).wellFormed = true := by decide

/-! ### Decode: a word of each row written out digit by digit from R70 and R76 -/

/-- `0|50`: opcode digit 0, address digits 50. -/
theorem test_decode_inp : decode 050 = .ok (.inp 50) := rfl
/-- `1|60`. -/
theorem test_decode_cla : decode 160 = .ok (.cla 60) := rfl
/-- `2|51`. -/
theorem test_decode_add : decode 251 = .ok (.add 51) := rfl
/-- `3|16`. -/
theorem test_decode_tac : decode 316 = .ok (.tac 16) := rfl
/-- `4|3|7` (V12). -/
theorem test_decode_sft : decode 437 = .ok (.sft 3 7) := rfl
/-- `5|52`. -/
theorem test_decode_out : decode 552 = .ok (.out 52) := rfl
/-- `6|52`. -/
theorem test_decode_sto : decode 652 = .ok (.sto 52) := rfl
/-- `7|00`. -/
theorem test_decode_sub : decode 700 = .ok (.sub 0) := rfl
/-- `8|40`. -/
theorem test_decode_jmp : decode 840 = .ok (.jmp 40) := rfl
/-- `9|99` (V6). -/
theorem test_decode_hrs : decode 999 = .ok (.hrs 99) := rfl
/-- V7, V8: negative opcodes; R77: 1000 and above. -/
theorem test_decode_no_handler : decode (-150) = .error (.undecodedOpcode (-150)) ∧
    decode (-100) = .error (.undecodedOpcode (-100)) ∧ decode 1000 = .error (.undecodedOpcode 1000) := ⟨rfl, rfl, rfl⟩
/-- V9, V10. -/
theorem test_decode_negative_address : decode (-99) = .error (.negativeAddress (-99)) ∧
    decode (-5) = .error (.negativeAddress (-5)) := ⟨rfl, rfl⟩
/-- R75: `100 * opcode + address`. -/
theorem test_encode : encode (.sft 3 7) = 437 ∧ encode (.hrs 99) = 999 ∧ encode (.inp 0) = 0 := by decide
theorem test_decode_table_word : decodeTableWord 16 840 = some (.jmp 40) ∧ decodeTableWord 16 1000 = none := by decide

/-! ### The instructions: at most two vectors each -/

/-- V14: queue 5 then 8. -/
theorem test_inp_takes_the_tail :
    seen (step { vec 50 with inDeck := [8, 5] }) (fun t => (Memory.read t.mem 50, t.inDeck, t.pc)) = some (5, [8], 11) := by
  decide
/-- V20: the range check precedes the guard of address 0. -/
theorem test_inp_checks_before_the_guard :
    seen (step { vec 0 with inDeck := [1000] }) (fun t => (t.fault, t.inDeck, t.steps, t.pc)) =
      some (some (.malformedInputValue 1000), [], 0, 11) := by decide
/-- V30. -/
theorem test_cla_negative : seen (step { vec50 150 (-42) with acc := 77 }) (fun t => (t.acc, t.flag)) = some (-42, false) := by
  decide
/-- V31. -/
theorem test_cla_zero : seen (step { vec50 150 0 with acc := 77, flag := false }) (fun t => (t.acc, t.flag)) = some (0, true) := by
  decide
/-- V68: operand negative, sum positive. -/
theorem test_add_latches_the_operand : seen (step { vec50 250 (-3) with acc := 5 }) (fun t => (t.acc, t.flag)) = some (2, false) := by
  decide
/-- V72: beyond four digits. -/
theorem test_add_does_not_wrap : seen (step { vec50 250 999 with acc := 9999 }) (fun t => (t.acc, t.flag)) = some (10998, true) := by
  decide
/-- V75. -/
theorem test_sub_latches_the_result : seen (step { vec50 750 8 with acc := 5 }) (fun t => (t.acc, t.flag)) = some (-3, false) := by
  decide
/-- V79. -/
theorem test_sub_negative_operand : seen (step { vec50 750 (-999) with flag := false }) (fun t => (t.acc, t.flag)) = some (999, true) := by
  decide
/-- V90, with the latch disagreeing. -/
theorem test_sft_negative : seen (step { vec 411 with acc := -1234 }) (fun t => (t.acc, t.flag)) = some (-234, true) := by decide
/-- V94. -/
theorem test_sft_left_then_right : seen (step { vec 431 with acc := 9999 }) (fun t => (t.acc, t.pc)) = some (900, 11) := by decide
/-- V29. -/
theorem test_out_appends_at_the_tail : seen (step { vec50 550 6 with outDeck := [4] }) (fun t => t.outDeck) = some [4, 6] := by decide
/-- V25: the cell's value, not the accumulator's. -/
theorem test_out_cell_value : seen (step { vec50 550 (-999) with acc := 1234 }) (fun t => (t.outDeck, t.acc)) = some ([-999], 1234) := by decide
/-- V51. -/
theorem test_sto_keeps_acc :
    seen (step { vec 699 with acc := -1850, flag := false }) (fun t => (Memory.read t.mem 99, t.acc, t.flag)) =
      some (-850, -1850, false) := by decide
/-- V50: address 0 is not guarded. -/
theorem test_sto_cell_zero : seen (step { vec 600 with acc := 1234 }) (fun t => Memory.read t.mem 0) = some 234 := by decide
/-- V54: the latch decides, not the accumulator. -/
theorem test_tac_taken : seen (step { vec 340 with flag := false }) (fun t => (t.pc, Memory.read t.mem 99)) = some (40, 811) := by decide
/-- V55. -/
theorem test_tac_not_taken : seen (step { vec 340 with acc := -5 }) (fun t => (t.pc, Memory.read t.mem 99)) = some (11, 800) := by decide
/-- V62: from cell 99 the record is `HRS 00`. -/
theorem test_jmp_from_the_return_slot :
    seen (step { State.reset with pc := 99 }) (fun t => (Memory.read t.mem 99, t.pc)) = some (900, 0) := by decide
/-- V64: the jump operation with destination 100. -/
theorem test_jmp_no_return : seen (exec (.jmp 100) (vec 0)) (fun t => (Memory.read t.mem 99, t.pc)) = some (800, 100) := by decide
/-- V66. -/
theorem test_hrs_halts : seen (step { vec 942 with run := true }) (fun t => (t.pc, t.run, t.steps)) = some (42, false, 1) := by decide
/-- V65: cell 99 is not written. -/
theorem test_hrs_records_nothing : seen (step { vec 900 with run := true, acc := 5, flag := false })
    (fun t => (Memory.read t.mem 99, t.acc, t.flag, t.pc)) = some (800, 5, false, 0) := by decide

/-! ### Faults, the host and the fetch -/

/-- V7, V9, V13. -/
theorem test_fault_states :
    seen (step (vec (-150))) (fun t => (t.fault, t.pc, t.steps)) = some (some (.undecodedOpcode (-150)), 11, 0) ∧
    seen (step (vec (-99))) (fun t => (t.fault, t.pc, t.steps)) = some (some (.addressOutOfRange (-99)), 11, 0) ∧
    seen (step { vec 0 with pc := 100 }) (fun t => (t.fault, t.pc, t.steps)) = some (some (.addressOutOfRange 100), 100, 0) := by
  decide
/-- V104: reset keeps the fault, and a faulted engine does not step. -/
theorem test_reset_keeps_the_fault :
    seen (step (hostReset { vec (-150) with fault := some (.undecodedOpcode (-150)), pc := 11 }))
      (fun t => (t.pc, t.steps, t.fault)) = some (0, 0, some (.undecodedOpcode (-150))) := by decide
/-- V106, V107. -/
theorem test_load_checks :
    seen (hostLoadProgram [(10, 150), (-1, 5), (200, 5)] State.reset) (fun t => (t.fault, Memory.read t.mem 10)) =
      some (some (.addressOutOfRange (-1)), 0) ∧
    hostLoadProgram [(10, 1000)] State.reset = .refused (.valueOutOfRange 1000) := ⟨by decide, rfl⟩
/-- V108: cells 0 and 99 may be loaded. -/
theorem test_load_everywhere :
    seen (hostLoadProgram [(0, 7), (99, 5)] State.reset) (fun t => (Memory.read t.mem 0, Memory.read t.mem 99)) = some (7, 5) := by
  decide
/-- R170's codes and information. -/
theorem test_fault_codes : (Fault.addressOutOfRange 100).code = 1 ∧ (Fault.undecodedOpcode (-150)).code = 2 ∧
    (Fault.malformedInputValue 1000).code = 3 ∧ (Fault.undecodedOpcode (-150)).info = -150 := by decide
/-- Writing a power-on value removes the entry, so equal memories are equal lists (log 2). -/
theorem test_memory_canonical : Memory.write (Memory.write [] 99 5) 99 800 = [] ∧
    Memory.write (Memory.write [] 7 1) 3 2 = Memory.write (Memory.write [] 3 2) 7 1 := by decide
/-- The host's probe: the very next step after power-on runs the word. -/
theorem test_fetch_word : seen (step (State.reset.withFetchWord 16 942)) (fun t => (t.pc, t.steps)) = some (42, 1) := by decide
/-- R214, R215: the operations of a clean launch give its premises, the cards 5 then 8 with the 5 at the tail. -/
theorem test_launch_is_clean : (hostPerform (launchOps [(10, 900)] [5, 8] 10) State.reset).CleanLaunch [(10, 900)] [5, 8] 10 ∧
    (hostPerform (launchOps [(10, 900)] [5, 8] 10) State.reset).inDeck = [8, 5] :=
  ⟨⟨by unfold IsProgram; decide, rfl, rfl, rfl, rfl, rfl, rfl, rfl, rfl, rfl⟩, rfl⟩
/-- R214: the image of a program is the power-on memory (R31) but for the cells it names. -/
theorem test_program_image : Memory.read (programImage [(10, 900), (11, -5)]) 10 = 900 ∧
    Memory.read (programImage [(10, 900), (11, -5)]) 11 = -5 ∧ Memory.read (programImage [(10, 900), (11, -5)]) 0 = 1 ∧
    Memory.read (programImage [(10, 900), (11, -5)]) 99 = 800 := by decide

/-! ### Witnesses: for each obligation with hypotheses, values that meet them, at the boundaries of each clause -/

theorem test_witness_EveryOpcodeRowDecodes : (0 : Nat) < 100 ∧ (99 : Nat) < 100 := by decide
theorem test_witness_SftCountsAreTheWordsDigits : ((400 : Int) ≤ 400 ∧ (400 : Int) ≤ 499) ∧ (400 : Int) ≤ 499 ∧ (499 : Int) ≤ 499 := by decide
theorem test_witness_DecodeEncodeRoundTrip : (Instr.sft 9 9).wellFormed = true ∧ (Instr.hrs 99).wellFormed = true := by decide
theorem test_witness_DecodedWordIsItsEncoding : decode 0 = .ok (.inp 0) ∧ decode 499 = .ok (.sft 9 9) ∧ decode 999 = .ok (.hrs 99) := ⟨rfl, rfl, rfl⟩
theorem test_witness_EveryNonNegativeWordIsAnInstruction : ((0 : Int) ≤ 0 ∧ (0 : Int) ≤ 999) ∧ (0 : Int) ≤ 999 ∧ (999 : Int) ≤ 999 := by decide
theorem test_witness_OtherWordsAreRejected : ((-100 : Int) ≤ -100 ∨ 1000 ≤ (-100 : Int)) ∧ ((1000 : Int) ≤ -100 ∨ 1000 ≤ (1000 : Int)) ∧
    ((-99 : Int) ≤ -99 ∧ (-99 : Int) ≤ -1) ∧ (-99 : Int) ≤ -1 ∧ (-1 : Int) ≤ -1 := by decide
theorem test_witness_MemReadChecksTheBounds : (99 : Nat) < 100 ∧ ((-1 : Int) < 0 ∨ 99 < (-1 : Int)) ∧ ((100 : Int) < 0 ∨ 99 < (100 : Int)) := by decide
theorem test_witness_MemWriteChangesOneCell : ((0 : Int) ≤ 99 ∧ (99 : Int) ≤ 99) ∧ (98 : Int) ≠ 99 ∧ ((-1 : Int) < 0 ∨ 99 < (-1 : Int)) ∧
    ((100 : Int) < 0 ∨ 99 < (100 : Int)) := by decide
theorem test_witness_CanonicalMemories : Memory.wf [(0, 5), (99, -999)] = true ∧
    ∀ a : Nat, a < 100 → Memory.read [(0, 5), (99, -999)] a = Memory.read (Memory.write [(0, 5)] 99 (-999)) a :=
  ⟨by decide, fun _ _ => rfl⟩
theorem test_witness_ClaLoadsTheCell : (99 : Nat) < 100 ∧ Memory.cellsInRange (vec50 150 (-999)).mem = true := by decide
theorem test_witness_cell_operands : (0 : Nat) < 100 ∧ (99 : Nat) < 100 := by decide
/-- TAC with the latch set and clear: both branches of its result. -/
theorem test_witness_TacBranchesOnTheLatch : (99 : Nat) < 100 ∧ (vec 340).flag = true ∧ ({ vec 340 with flag := false } : State).flag ≠ true := by decide
theorem test_witness_JmpRecordsTheReturn : (99 : Nat) < 100 ∧ (99 : Nat) ≠ 100 ∧ (100 : Nat) = 100 := by decide
theorem test_witness_HrsHaltsAndSetsTheTarget : (99 : Nat) < 100 := by decide
theorem test_witness_InpOfAnEmptyDeckStoresZero : (0 : Nat) < 100 ∧ (99 : Nat) < 100 ∧ (vec 99).inDeck = [] := by decide
theorem test_witness_InpStoresTheTailCard : (0 : Nat) < 100 ∧ ({ vec 50 with inDeck := [8, -999] } : State).inDeck = [8] ++ [-999] ∧
    (-999 : Int) ≤ -999 ∧ (-999 : Int) ≤ 999 ∧ (999 : Int) ≤ 999 := by decide
theorem test_witness_InpRejectsACardOutOfRange : (0 : Nat) < 100 ∧ ({ vec 50 with inDeck := [8, -1000] } : State).inDeck = [8] ++ [-1000] ∧
    ((-1000 : Int) < -999 ∨ 999 < (-1000 : Int)) ∧ ((1000 : Int) < -999 ∨ 999 < (1000 : Int)) := by decide
theorem test_witness_AccumulatorInstructionsFrame :
    (Instr.cla 99).wellFormed = true ∧ (∃ t, exec (.cla 99) (vec 199) = .next t) ∧ (∃ t, exec (.add 99) (vec 299) = .next t) ∧
    (∃ t, exec (.sub 99) (vec 799) = .next t) ∧ (Instr.sft 9 9).wellFormed = true ∧ ∃ t, exec (.sft 9 9) (vec 499) = .next t :=
  ⟨rfl, ⟨_, rfl⟩, ⟨_, rfl⟩, ⟨_, rfl⟩, rfl, ⟨_, rfl⟩⟩
theorem test_witness_OutFrame : (99 : Nat) < 100 ∧ ∃ t, exec (.out 99) (vec 599) = .next t := ⟨by decide, _, rfl⟩
/-- INP with its write, guarded, and rejecting; STO. -/
theorem test_witness_StoringInstructionsFrame : (∃ t, exec (.inp 99) (vec 99) = .next t) ∧ (∃ t, exec (.inp 0) (vec 0) = .next t) ∧
    (∃ t, exec (.inp 50) { vec 50 with inDeck := [1000] } = .next t ∧ t.fault = some (.malformedInputValue 1000)) ∧
    inpDestination 99 ≠ some 98 ∧ inpDestination 0 ≠ some 0 ∧ stoDestination 99 ≠ some 0 ∧ ∃ t, exec (.sto 99) (vec 699) = .next t :=
  ⟨⟨_, rfl⟩, ⟨_, rfl⟩, ⟨_, rfl, rfl⟩, by decide, by decide, by decide, _, rfl⟩
/-- TAC taken and not, JMP, HRS, and cells outside what is written. -/
theorem test_witness_ControlInstructionsFrame : (∃ t, exec (.tac 99) (vec 399) = .next t ∧ (vec 399).flag = true) ∧
    (∃ t, exec (.tac 99) { vec 399 with flag := false } = .next t) ∧ (∃ t, exec (.jmp 99) (vec 899) = .next t) ∧
    (∃ t, exec (.hrs 99) (vec 999) = .next t) ∧ returnSlot 99 ≠ some 98 ∧ Instr.jmp 99 ≠ .hrs 99 :=
  ⟨⟨_, rfl, rfl⟩, ⟨_, rfl⟩, ⟨_, rfl⟩, ⟨_, rfl⟩, by decide, by decide⟩
/-- A step that completes, and one whose handler raises a fault. -/
theorem test_witness_StepRunsTheDecodedInstruction : (vec 150).fault = none ∧ (vec 150).pc ≤ 99 ∧
    decode (Memory.read (vec 150).mem (vec 150).pc) = .ok (.cla 50) ∧
    (∃ t, exec (.cla 50) { vec 150 with pc := (vec 150).pc + 1 } = .next t ∧ t.fault = none) ∧
    decode (Memory.read (vec 50).mem (vec 50).pc) = .ok (.inp 50) ∧
    ∃ t, exec (.inp 50) { vec 50 with pc := 11, inDeck := [1000] } = .next t ∧ t.fault ≠ none :=
  ⟨rfl, by decide, rfl, ⟨_, rfl, rfl⟩, rfl, _, rfl, by decide⟩
theorem test_witness_OnlyInpRaisesAFault : (Instr.inp 50).wellFormed = true ∧ ({ vec 50 with inDeck := [1000] } : State).fault = none ∧
    (∃ t, exec (.inp 50) { vec 50 with inDeck := [1000] } = .next t ∧ t.fault ≠ none) ∧ ∃ t, exec (.jmp 99) (vec 50) = .next t :=
  ⟨rfl, rfl, ⟨_, rfl, by decide⟩, _, rfl⟩
/-- The four fault clauses at their boundaries: `pc` 100; words -100 and 1000; words -99 and -1; words 0 and 99 with cards
-1000 and 1000. They serve StepFaultsHaveTheseCauses and FaultingStepLeavesThisState. -/
theorem test_witness_fault_clauses :
    (99 < ({ vec 0 with pc := 100 } : State).pc ∧ ∃ t, step { vec 0 with pc := 100 } = .next t ∧ t.fault = some (.addressOutOfRange 100)) ∧
    (Memory.read (vec (-100)).mem 10 = -100 ∧ ∃ t, step (vec (-100)) = .next t ∧ t.fault = some (.undecodedOpcode (-100))) ∧
    (Memory.read (vec 1000).mem 10 = 1000 ∧ ∃ t, step (vec 1000) = .next t ∧ t.fault = some (.undecodedOpcode 1000)) ∧
    (Memory.read (vec (-99)).mem 10 = -99 ∧ ∃ t, step (vec (-99)) = .next t ∧ t.fault = some (.addressOutOfRange (-99))) ∧
    (Memory.read (vec (-1)).mem 10 = -1 ∧ ∃ t, step (vec (-1)) = .next t ∧ t.fault = some (.addressOutOfRange (-1))) ∧
    (∃ t, step { vec 0 with inDeck := [4, -1000] } = .next t ∧ t.fault = some (.malformedInputValue (-1000))) ∧
    ∃ t, step { vec 99 with inDeck := [4] ++ [1000] } = .next t ∧ t.fault = some (.malformedInputValue 1000) :=
  ⟨⟨by decide, _, rfl, rfl⟩, ⟨rfl, _, rfl, rfl⟩, ⟨rfl, _, rfl, rfl⟩, ⟨rfl, _, rfl, rfl⟩, ⟨rfl, _, rfl, rfl⟩, ⟨_, rfl, rfl⟩, _, rfl, rfl⟩
theorem test_witness_FaultedEngineDoesNotStep : ({ vec 50 with fault := some (.addressOutOfRange 100) } : State).fault ≠ none := by decide
/-- A counting step and a faulting one. -/
theorem test_witness_StepCounterCountsAndIsNeverRead : (vec 900).fault = none ∧ (∃ t, step (vec 900) = .next t ∧ t.fault = none) ∧
    ∃ t, step (vec (-5)) = .next t ∧ t.fault ≠ none := ⟨rfl, ⟨_, rfl, rfl⟩, _, rfl, by decide⟩
/-- A step that sets `pc` by each of JMP, HRS and a taken TAC, and one that only advances. -/
theorem test_witness_StepSetsThePcByTheOpcode :
    (decode (Memory.read (vec 899).mem (vec 899).pc) = .ok (.jmp 99) ∧ ∃ t, step (vec 899) = .next t) ∧
    (decode (Memory.read (vec 999).mem (vec 999).pc) = .ok (.hrs 99) ∧ ∃ t, step (vec 999) = .next t) ∧
    (decode (Memory.read (vec 399).mem (vec 399).pc) = .ok (.tac 99) ∧ ∃ t, step { vec 399 with flag := false } = .next t) ∧
    ∃ t, step (vec 399) = .next t ∧ (vec 399).flag = true ∧ (vec 399).pc ≤ 99 :=
  ⟨⟨rfl, _, rfl⟩, ⟨rfl, _, rfl⟩, ⟨rfl, _, rfl⟩, _, rfl, rfl, by decide⟩
/-- Steps that change the latch, in CLA, ADD and SUB. -/
theorem test_witness_StepLatchesTheSign : (∃ t, step (vec50 150 (-1)) = .next t ∧ t.flag ≠ (vec50 150 (-1)).flag) ∧
    (∃ t, step (vec50 250 (-1)) = .next t ∧ t.flag ≠ (vec50 250 (-1)).flag) ∧ ∃ t, step (vec 700) = .next t ∧ t.flag ≠ (vec 700).flag :=
  ⟨⟨_, rfl, by decide⟩, ⟨_, rfl, by decide⟩, _, rfl, by decide⟩
/-- Steps that change the accumulator, in each of the four. -/
theorem test_witness_StepWritesTheAccumulator : (∃ t, step (vec 100) = .next t ∧ t.acc ≠ (vec 100).acc) ∧
    (∃ t, step (vec 200) = .next t ∧ t.acc ≠ (vec 200).acc) ∧ (∃ t, step (vec 700) = .next t ∧ t.acc ≠ (vec 700).acc) ∧
    ∃ t, step { vec 410 with acc := 5 } = .next t ∧ t.acc ≠ 5 :=
  ⟨⟨_, rfl, by decide⟩, ⟨_, rfl, by decide⟩, ⟨_, rfl, by decide⟩, _, rfl, by decide⟩
/-- Steps that change a cell: STO to cell 0, INP to cell 99, JMP, and a taken TAC. -/
theorem test_witness_StepWritesACell : (∃ t, step (vec 600) = .next t ∧ Memory.read t.mem 0 ≠ Memory.read (vec 600).mem 0) ∧
    (∃ t, step (vec 99) = .next t ∧ Memory.read t.mem 99 ≠ Memory.read (vec 99).mem 99) ∧
    (∃ t, step (vec 840) = .next t ∧ Memory.read t.mem 99 ≠ Memory.read (vec 840).mem 99) ∧
    ∃ t, step { vec 340 with flag := false } = .next t ∧ Memory.read t.mem 99 ≠ Memory.read (vec 340).mem 99 :=
  ⟨⟨_, rfl, by decide⟩, ⟨_, rfl, by decide⟩, ⟨_, rfl, by decide⟩, _, rfl, by decide⟩
/-- Steps that move a card: INP and OUT. -/
theorem test_witness_StepMovesACard : (∃ t, step { vec 50 with inDeck := [8, 5] } = .next t ∧ t.inDeck = [8]) ∧
    ∃ t, step (vec 500) = .next t ∧ t.outDeck = [1] := ⟨⟨_, rfl, rfl⟩, _, rfl, rfl⟩
/-- A latching instruction, and one that is neither latching nor TAC. -/
theorem test_witness_LatchIsReadOnlyByTac : (Instr.add 99).wellFormed = true ∧ (¬ ∃ a, Instr.add 99 = .tac a) ∧
    (∃ t, exec (.add 99) (vec 299) = .next t) ∧ (Instr.jmp 99).wellFormed = true ∧ (¬ ∃ a, Instr.jmp 99 = .tac a) ∧
    (¬ ∃ a, Instr.jmp 99 = .cla a ∨ Instr.jmp 99 = .add a ∨ Instr.jmp 99 = .sub a) ∧ ∃ t, exec (.jmp 99) (vec 899) = .next t :=
  ⟨rfl, by simp, ⟨_, rfl⟩, rfl, by simp, by simp, _, rfl⟩
theorem test_witness_RunLatchIsNeverRead : ({ vec 900 with run := true } : State).run = true ∧ ∃ t, step { vec 900 with run := true } = .next t ∧ t.run = false :=
  ⟨rfl, _, rfl, rfl⟩
theorem test_witness_OutputDeckIsNeverRead : ∃ t, step (vec 500) = .next t ∧ t.outDeck ≠ [] := ⟨_, rfl, by decide⟩
/-- A store to another cell, and one to its own (V49). -/
theorem test_witness_NextFetchSeesTheStore : (vec 699).fault = none ∧ (vec 699).pc ≤ 99 ∧
    Memory.read (vec 699).mem (vec 699).pc = 600 + ((99 : Nat) : Int) ∧ Memory.read (vec 610).mem (vec 610).pc = 600 + ((10 : Nat) : Int) := by decide
/-- A jump from cell 10, one from cell 99, one from cell 98, and JMP 99. -/
theorem test_witness_JumpLeavesItsReturnInstruction : (vec 840).fault = none ∧ (vec 840).pc ≤ 98 ∧
    Memory.read (vec 840).mem (vec 840).pc = 800 + ((40 : Nat) : Int) ∧
    ({ State.reset with pc := 99 } : State).pc = 99 ∧ Memory.read State.reset.mem 99 = 800 + ((0 : Nat) : Int) ∧
    Memory.read (Memory.write [] 98 899) 98 = 800 + ((99 : Nat) : Int) := by decide
theorem test_witness_StepKeepsTheStateGood : (vec50 150 (-999)).Good ∧ ∃ t, step (vec50 150 (-999)) = .next t := by
  unfold State.Good; exact ⟨by decide, _, rfl⟩
theorem test_witness_StepKeepsThePcReachable : ({ vec 0 with pc := 99 } : State).PcReachable ∧ ∃ t, step { vec 0 with pc := 99 } = .next t :=
  ⟨by unfold State.PcReachable; decide, _, rfl⟩
/-- At the bound: `acc = 9999` with no step counted. -/
theorem test_witness_StepKeepsTheAccumulatorBounded : ({ vec50 250 999 with acc := 9999 } : State).Good ∧
    ({ vec50 250 999 with acc := 9999 } : State).AccBounded ∧ ∃ t, step { vec50 250 999 with acc := 9999 } = .next t := by
  unfold State.Good State.AccBounded; exact ⟨by decide, by decide, _, rfl⟩
/-- A faulted engine after construction, and after another operation. -/
theorem test_witness_ConstructGivesThePowerOnState : ({ vec 0 with fault := some (.addressOutOfRange 100) } : State).fault ≠ none ∧
    ∃ t, hostAct .construct { vec 0 with fault := some (.addressOutOfRange 100) } = .next t ∧ t.fault = none := ⟨by decide, _, rfl, rfl⟩
theorem test_witness_ClearMemoryRestoresTheCells : (0 : Nat) < 100 ∧ (99 : Nat) < 100 := by decide
/-- The three clauses of a load, at the boundary addresses and values. -/
theorem test_witness_LoadProgramWritesAllOrNothing :
    (([(10, 150), (-1, 5), (100, 5)] : List (Int × Int)).map Prod.fst).Nodup ∧ ((-1 : Int) < 0 ∨ 99 < (-1 : Int)) ∧
    (∀ b ∈ ([(10, 150), (-1, 5), (100, 5)] : List (Int × Int)).map Prod.fst, (b < 0 ∨ 99 < b) → (-1 : Int) ≤ b) ∧
    (∀ a ∈ ([(0, 1000), (99, -1000)] : List (Int × Int)).map Prod.fst, 0 ≤ a ∧ a ≤ 99) ∧
    (∃ v ∈ ([(0, 1000), (99, -1000)] : List (Int × Int)).map Prod.snd, v < -999 ∨ 999 < v) ∧
    (∀ c ∈ ([(0, 999), (99, -999)] : List (Int × Int)), 0 ≤ c.1 ∧ c.1 ≤ 99 ∧ -999 ≤ c.2 ∧ c.2 ≤ 999) := by decide
theorem test_witness_CellAccessByTheHost : (99 : Nat) < 100 ∧ ((100 : Int) < 0 ∨ 99 < (100 : Int)) ∧ ((-1 : Int) < 0 ∨ 99 < (-1 : Int)) := by decide
theorem test_witness_OnlyTheHostSetsTheRunLatch : State.reset.run = false ∧
    ∃ t, hostAct (.setRun true) State.reset = .next t ∧ t.run = true := ⟨rfl, _, rfl, rfl⟩
theorem test_witness_CardsAreReadInQueueOrder : State.reset.inDeck = [] ∧ (0 : Nat) < 50 ∧ (50 : Nat) < 100 ∧ (-999 : Int) ≤ 5 ∧ (5 : Int) ≤ 999 := by decide
/-- A stopped run, and a run that ends within its budget (V111, V112). -/
theorem test_witness_RunStopsAtItsEnd : (vec 900).run = false ∧ ({ vec 0 with fault := some (.addressOutOfRange 100) } : State).fault ≠ none ∧
    (∃ t, runLoop 1 { vec 900 with run := true } = .next t ∧ t.run = false) ∧ (1 : Nat) ≤ 2 := ⟨rfl, by decide, ⟨_, rfl, rfl⟩, by decide⟩
theorem test_witness_HaltedRunEndedInHrs : ({ vec 900 with run := true } : State).run = true ∧ (vec 900).fault = none ∧
    ∃ t, runLoop 1 { vec 900 with run := true } = .next t ∧ t.run = false ∧ t.fault = none := ⟨rfl, rfl, _, rfl, rfl, rfl⟩

end Sys2Proof.Tests
end

section
/-! What the decoder can answer (spec/30_encoding.md R71, R72): a word that decodes is a word of the table. -/

namespace Sys2Proof

/-- The table's entries are well-formed (R72, R74). -/
theorem handlerTable_wellFormed {k a : Nat} {i : Instr} (hk : k < 10) (ha : a < 100)
    (h : handlerTable k a = some i) : i.wellFormed = true := by
  interval_cases k <;> cases h
  on_goal 5 =>
    simp only [Instr.wellFormed, Bool.and_eq_true, digitOk_iff, leftCount, rightCount, config_sftDiv]
    omega
  all_goals exact addressOk_iff.2 ha

/-- A word that decodes is the word of a table entry (R71, R76). -/
theorem decode_ok_table {w : Int} {i : Instr} (h : decode w = .ok i) :
    ∃ k a : Nat, k < 10 ∧ a < 100 ∧ w = ((100 * k + a : Nat) : Int) ∧ handlerTable k a = some i := by
  have hdiv : 100 * opcodeOf w + addressOf w = w := Int.mul_tdiv_add_tmod w 100
  have hmod : addressOf w < 100 := Int.tmod_lt_of_pos w (by decide)
  unfold decode at h
  split at h
  · cases h
  · rename_i hop
    have hop : ¬ (opcodeOf w < 0 ∨ 10 ≤ opcodeOf w) := hop
    split at h
    · cases h
    · split at h
      · rename_i j hj
        cases h
        exact ⟨_, _, by omega, by omega, by omega, hj⟩
      · cases h

theorem decode_wellFormed {w : Int} {i : Instr} (h : decode w = .ok i) : i.wellFormed = true := by
  obtain ⟨k, a, hk, ha, -, hi⟩ := decode_ok_table h
  exact handlerTable_wellFormed hk ha hi

theorem Instr.addressField_lt {i : Instr} (hi : i.wellFormed = true) : i.addressField < 100 := by
  cases i with
  | sft l r =>
    simp only [Instr.wellFormed, Bool.and_eq_true, digitOk_iff] at hi
    simp only [Instr.addressField, config_sftDiv]
    omega
  | _ => exact addressOk_iff.1 hi

end Sys2Proof
end

section
/-! What each instruction does, component by component (spec/10_state.md R20 to R28): one function of the instruction
and the state for each component a handler can change, and `exec_eq_stateAfter`, which ties all of them to the model. -/

namespace Sys2Proof.Machine

/-- What INP reads from a deck: the tail card, 0 for an empty deck, or the fault of a card out of range (R110). -/
def cardRead (d : List Int) : Except Fault Int :=
  match d.getLast? with
  | none => .ok config.emptyCard
  | some v => if cardInRange v then .ok v else .error (.malformedInputValue v)

/-- The cell an instruction writes, and the value (R32). -/
def cellWritten (i : Instr) (s : State) : Option (Nat × Int) :=
  match i with
  | .inp a =>
    match cardRead s.inDeck with
    | .ok v => if a = 0 then none else some (a, v)
    | .error _ => none
  | .sto a => some (a, stoValue s.acc)
  | .tac _ => if s.flag then none else some (99, returnWord s.pc)
  | .jmp _ => some (99, returnWord s.pc)
  | _ => none

def memAfter (i : Instr) (s : State) : Memory :=
  match cellWritten i s with
  | some (b, v) => Memory.write s.mem b v
  | none => s.mem

def accAfter (i : Instr) (s : State) : Int :=
  match i with
  | .cla a => Memory.read s.mem a
  | .add a => s.acc + Memory.read s.mem a
  | .sub a => s.acc - Memory.read s.mem a
  | .sft l r => shiftDigits l r s.acc
  | _ => s.acc

def flagAfter (i : Instr) (s : State) : Bool :=
  match i with
  | .cla a => claFlag (Memory.read s.mem a)
  | .add a => addFlag (Memory.read s.mem a)
  | .sub a => subFlag (s.acc - Memory.read s.mem a)
  | _ => s.flag

def pcAfter (i : Instr) (s : State) : Nat :=
  match i with
  | .tac a => if s.flag then s.pc else a
  | .jmp a => a
  | .hrs a => a
  | _ => s.pc

def inDeckAfter (i : Instr) (s : State) : List Int :=
  match i with
  | .inp _ => s.inDeck.dropLast
  | _ => s.inDeck

def outDeckAfter (i : Instr) (s : State) : List Int :=
  match i with
  | .out a => s.outDeck ++ [Memory.read s.mem a]
  | _ => s.outDeck

def runAfter (i : Instr) (s : State) : Bool :=
  match i with
  | .hrs _ => false
  | _ => s.run

def faultAfter (i : Instr) (s : State) : Option Fault :=
  match i with
  | .inp _ =>
    match cardRead s.inDeck with
    | .ok _ => s.fault
    | .error f => some f
  | _ => s.fault

/-- The state the handler of a well-formed instruction leaves (`exec_eq_stateAfter`). -/
@[simps] def stateAfter (i : Instr) (s : State) : State where
  mem := memAfter i s
  acc := accAfter i s
  flag := flagAfter i s
  pc := pcAfter i s
  inDeck := inDeckAfter i s
  outDeck := outDeckAfter i s
  run := runAfter i s
  steps := s.steps
  fault := faultAfter i s

/-! ### The card reader -/

theorem cardRead_ok_inRange {d : List Int} {v : Int} (h : cardRead d = .ok v) : cellInRange v = true := by
  unfold cardRead at h
  split at h
  · cases h; decide
  · split at h
    · rename_i hv; cases h; exact cellInRange_iff.2 (cardInRange_iff.1 hv)
    · cases h

theorem cardRead_error {d : List Int} {f : Fault} (h : cardRead d = .error f) : ∃ v, f = .malformedInputValue v := by
  unfold cardRead at h
  split at h
  · cases h
  · split at h
    · cases h
    · cases h; exact ⟨_, rfl⟩

theorem cardRead_concat {v : Int} (hv : cardInRange v = true) (cards : List Int) :
    cardRead (cards ++ [v]) = .ok v := by
  simp [cardRead, hv]

theorem takeCard_eq (s : State) : takeCard s = (s.setInDeck s.inDeck.dropLast, cardRead s.inDeck) := by
  rcases deck_cases s.inDeck with h | ⟨cards, v, h⟩
  · rw [takeCard_empty h, h]
    exact Prod.ext (by rw [List.dropLast_nil, ← h]; rfl) rfl
  · rw [takeCard_tail h, h, List.dropLast_concat]
    simp [cardRead]

/-! ### The handlers -/

theorem execInp_eq {a : Nat} (ha : a < 100) (s : State) : execInp a s = .next (stateAfter (.inp a) s) := by
  rw [execInp, if_neg (by simp), takeCard_eq, inpDestination_eq]
  cases hc : cardRead s.inDeck with
  | error f => simp only [stateAfter, memAfter, cellWritten, faultAfter, hc]; rfl
  | ok v =>
    by_cases h0 : a = 0
    · simp only [h0, if_true, storeTo_none, settle_ok, stateAfter, memAfter, cellWritten, faultAfter, hc]; rfl
    · simp only [h0, if_false, storeTo_cell ha, settle_ok, stateAfter, memAfter, cellWritten, faultAfter, hc]; rfl

theorem execTac_eq {a : Nat} (ha : a < 100) (s : State) : execTac a s = .next (stateAfter (.tac a) s) := by
  cases hf : s.flag with
  | true => simp only [execTac, stateAfter, memAfter, cellWritten, pcAfter, hf]; rfl
  | false => simp only [execTac, jump_eq, if_neg ha.ne, stateAfter, memAfter, cellWritten, pcAfter, hf]; rfl

/-- Every handler of a well-formed instruction leaves the state its component functions name. -/
theorem exec_eq_stateAfter {i : Instr} (hi : i.wellFormed = true) (s : State) :
    exec i s = .next (stateAfter i s) := by
  cases i with
  | inp a => exact execInp_eq (addressOk_iff.1 hi) s
  | cla a => exact withCell_cell (addressOk_iff.1 hi) s _
  | add a => exact withCell_cell (addressOk_iff.1 hi) s _
  | tac a => exact execTac_eq (addressOk_iff.1 hi) s
  | sft l r => rfl
  | out a => exact withCell_cell (addressOk_iff.1 hi) s _
  | sto a => exact congrArg (settle s) (storeTo_cell (addressOk_iff.1 hi) _ s)
  | sub a => exact withCell_cell (addressOk_iff.1 hi) s _
  | jmp a => exact (jump_eq a s).trans (by rw [if_neg (addressOk_iff.1 hi).ne]; rfl)
  | hrs a => rfl

end Sys2Proof.Machine
end

section
/-! Facts about the components a handler changes: which instruction can change each of them, and by what. -/

namespace Sys2Proof.Machine

/-- The three kinds of write, by instruction (R32, R57). -/
theorem cellWritten_target {i : Instr} {s : State} {b : Nat} {v : Int} (h : cellWritten i s = some (b, v)) :
    i = .sto b ∨ (b ≠ 0 ∧ i = .inp b) ∨ (b = 99 ∧ ∃ a, i = .jmp a ∨ (s.flag = false ∧ i = .tac a)) := by
  cases i with
  | inp a =>
    simp only [cellWritten] at h
    split at h
    · split at h
      · cases h
      · rename_i ha; cases h; exact .inr (.inl ⟨ha, rfl⟩)
    · cases h
  | sto a => cases h; exact .inl rfl
  | tac a =>
    simp only [cellWritten] at h
    split at h
    · cases h
    · rename_i hf; cases h; exact .inr (.inr ⟨rfl, a, .inr ⟨Bool.eq_false_iff.2 hf, rfl⟩⟩)
  | jmp a => cases h; exact .inr (.inr ⟨rfl, a, .inl rfl⟩)
  | _ => cases h

/-- The return instruction of an advanced `pc` the engine reaches is a cell's value (R151, R152). -/
theorem returnWord_inRange {pc : Nat} (h : pc ≤ 100) : cellInRange (returnWord pc) = true := by
  rw [cellInRange_iff, returnWord_eq]; omega

/-- What an instruction writes is a value in range (R22). -/
theorem cellWritten_inRange {i : Instr} {s : State} {b : Nat} {v : Int} (hpc : s.pc ≤ 100)
    (h : cellWritten i s = some (b, v)) : cellInRange v = true := by
  cases i with
  | inp a =>
    simp only [cellWritten] at h
    split at h
    · rename_i w hw
      split at h
      · cases h
      · cases h; exact cardRead_ok_inRange hw
    · cases h
  | sto a => cases h; exact stoValue_inRange s.acc
  | tac a =>
    simp only [cellWritten] at h
    split at h
    · cases h
    · cases h; exact returnWord_inRange hpc
  | jmp a => cases h; exact returnWord_inRange hpc
  | _ => cases h

/-- A well-formed instruction writes to a cell (R72). -/
theorem cellWritten_lt {i : Instr} {s : State} {b : Nat} {v : Int} (hi : i.wellFormed = true)
    (h : cellWritten i s = some (b, v)) : b < 100 := by
  rcases cellWritten_target h with rfl | ⟨-, rfl⟩ | ⟨rfl, -⟩
  · exact addressOk_iff.1 hi
  · exact addressOk_iff.1 hi
  · decide

theorem memAfter_of_written {i : Instr} {s : State} {b : Nat} {v : Int} (h : cellWritten i s = some (b, v)) :
    memAfter i s = Memory.write s.mem b v := by simp only [memAfter, h]

theorem memAfter_of_none {i : Instr} {s : State} (h : cellWritten i s = none) : memAfter i s = s.mem := by
  simp only [memAfter, h]

/-- A cell that reads otherwise after an instruction is the one it writes. -/
theorem cellWritten_of_read_ne {i : Instr} {s : State} {b : Nat}
    (h : Memory.read (memAfter i s) b ≠ Memory.read s.mem b) : ∃ v, cellWritten i s = some (b, v) := by
  cases hw : cellWritten i s with
  | none => exact absurd (by rw [memAfter_of_none hw]) h
  | some c =>
    obtain ⟨a, v⟩ := c
    by_cases hb : b = a
    · exact ⟨v, by rw [hb]⟩
    · exact absurd (by rw [memAfter_of_written hw, Memory.read_write_other _ _ hb]) h

/-- An instruction that does not write cell `b` leaves it as it reads. -/
theorem memAfter_read_other {i : Instr} {s : State} {b : Nat} (h : ∀ v, cellWritten i s ≠ some (b, v)) :
    Memory.read (memAfter i s) b = Memory.read s.mem b := by
  by_contra hne
  obtain ⟨v, hv⟩ := cellWritten_of_read_ne hne
  exact h v hv

/-- The memory after an instruction is canonical with its cells in range, as it was before (R22, R30). -/
theorem memAfter_keeps {i : Instr} {s : State} (hi : i.wellFormed = true) (hpc : s.pc ≤ 100)
    (hwf : Memory.wf s.mem = true) (hr : Memory.cellsInRange s.mem = true) :
    Memory.wf (memAfter i s) = true ∧ Memory.cellsInRange (memAfter i s) = true := by
  cases hw : cellWritten i s with
  | none => rw [memAfter_of_none hw]; exact ⟨hwf, hr⟩
  | some c =>
    rw [memAfter_of_written hw]
    exact ⟨Memory.wf_write _ (cellWritten_lt hi hw) hwf, Memory.cellsInRange_write _ (cellWritten_inRange hpc hw) hr⟩

/-- The output deck grows by cells' values only (R27). -/
theorem outDeckAfter_cases (i : Instr) (s : State) :
    outDeckAfter i s = s.outDeck ∨ ∃ a, i = .out a ∧ outDeckAfter i s = s.outDeck ++ [Memory.read s.mem a] := by
  cases i with
  | out a => exact .inr ⟨a, rfl, rfl⟩
  | _ => exact .inl rfl

/-- Only INP takes a card, the tail one (R26). -/
theorem inDeckAfter_cases (i : Instr) (s : State) :
    inDeckAfter i s = s.inDeck ∨ ∃ a v, i = .inp a ∧ s.inDeck = inDeckAfter i s ++ [v] := by
  cases i with
  | inp a =>
    rcases deck_cases s.inDeck with h | ⟨cards, v, h⟩
    · exact .inl (by simp only [inDeckAfter, h, List.dropLast_nil])
    · exact .inr ⟨a, v, rfl, by simp only [inDeckAfter, h, List.dropLast_concat]⟩
  | _ => exact .inl rfl

/-- The latch is written by CLA, ADD and SUB only, each by its rule (R24). -/
theorem flagAfter_cases (i : Instr) (s : State) :
    flagAfter i s = s.flag ∨ ∃ a, (i = .cla a ∧ flagAfter i s = nonNegative (accAfter i s)) ∨
      (i = .add a ∧ flagAfter i s = nonNegative (Memory.read s.mem a)) ∨
      (i = .sub a ∧ flagAfter i s = nonNegative (accAfter i s)) := by
  cases i with
  | cla a => exact .inr ⟨a, .inl ⟨rfl, rfl⟩⟩
  | add a => exact .inr ⟨a, .inr (.inl ⟨rfl, rfl⟩)⟩
  | sub a => exact .inr ⟨a, .inr (.inr ⟨rfl, rfl⟩)⟩
  | _ => exact .inl rfl

/-- The accumulator is written by CLA, ADD, SUB and SFT only (R23). -/
theorem accAfter_cases (i : Instr) (s : State) :
    accAfter i s = s.acc ∨ (∃ a, i = .cla a ∨ i = .add a ∨ i = .sub a) ∨ ∃ l r, i = .sft l r := by
  cases i with
  | cla a => exact .inr (.inl ⟨a, .inl rfl⟩)
  | add a => exact .inr (.inl ⟨a, .inr (.inl rfl)⟩)
  | sub a => exact .inr (.inl ⟨a, .inr (.inr rfl)⟩)
  | sft l r => exact .inr (.inr ⟨l, r, rfl⟩)
  | _ => exact .inl rfl

/-- JMP, HRS and a taken TAC transfer control (R25, R155). -/
def transfers (i : Instr) (flag : Bool) : Prop :=
  ∃ a, i = .jmp a ∨ i = .hrs a ∨ (i = .tac a ∧ flag = false)

theorem pcAfter_of_transfers {i : Instr} {s : State} (h : transfers i s.flag) : pcAfter i s = i.addressField := by
  obtain ⟨a, rfl | rfl | ⟨rfl, hf⟩⟩ := h
  · rfl
  · rfl
  · simp [pcAfter, hf, Instr.addressField]

theorem pcAfter_of_not_transfers {i : Instr} {s : State} (h : ¬ transfers i s.flag) : pcAfter i s = s.pc := by
  cases i with
  | jmp a => exact absurd ⟨a, .inl rfl⟩ h
  | hrs a => exact absurd ⟨a, .inr (.inl rfl)⟩ h
  | tac a =>
    cases hf : s.flag with
    | true => simp [pcAfter, hf]
    | false => exact absurd ⟨a, .inr (.inr ⟨rfl, hf⟩)⟩ h
  | _ => rfl

/-- From a reachable `pc` a handler leaves a reachable one: its address field is below 100 (R25). -/
theorem pcAfter_le {i : Instr} {s : State} (hi : i.wellFormed = true) (hpc : s.pc ≤ 100) : pcAfter i s ≤ 100 := by
  by_cases h : transfers i s.flag
  · rw [pcAfter_of_transfers h]; exact (Instr.addressField_lt hi).le
  · rw [pcAfter_of_not_transfers h]; exact hpc

/-- INP keeps the fault latch, or latches a rejected card and writes nothing (R110, R173; D1, D3). -/
theorem inp_fault_cases (a : Nat) (s : State) :
    faultAfter (.inp a) s = s.fault ∨
      (∃ v, faultAfter (.inp a) s = some (.malformedInputValue v)) ∧ cellWritten (.inp a) s = none := by
  cases hc : cardRead s.inDeck with
  | ok v => exact .inl (by simp only [faultAfter, hc])
  | error f =>
    obtain ⟨v, rfl⟩ := cardRead_error hc
    exact .inr ⟨⟨v, by simp only [faultAfter, hc]⟩, by simp only [cellWritten, hc]⟩

/-! ### The accumulator's magnitude (D10) -/

theorem shiftRight_natAbs_le (n : Nat) (t : Int) : (shiftRight n t).natAbs ≤ t.natAbs := by
  induction n generalizing t with
  | zero => exact le_refl _
  | succ k ih =>
    rw [shiftRight_succ]
    exact (ih _).trans (Int.natAbs_tdiv_le_natAbs t 10)

/-- SFT leaves at most four digits (R131, R133). -/
theorem shiftDigits_natAbs_le (l r : Nat) (t : Int) : (shiftDigits l r t).natAbs ≤ 9999 := by
  have hwin : (accWindow (shiftLeft l t)).natAbs ≤ 9999 := by
    rw [accWindow_eq, tmod, Int.natAbs_tmod]
    exact Nat.le_of_lt_succ (Nat.mod_lt _ (by decide))
  exact (shiftRight_natAbs_le r _).trans hwin

/-- An instruction on cells in range adds at most 999 to the accumulator's magnitude, or leaves at most 9999. -/
theorem accAfter_natAbs_le (i : Instr) {s : State} (hr : Memory.cellsInRange s.mem = true) :
    (accAfter i s).natAbs ≤ max 9999 (s.acc.natAbs + 999) := by
  have hread := fun a => cellInRange_iff.1 (Memory.read_inRange hr a)
  cases i with
  | cla a => have := hread a; simp only [accAfter]; omega
  | add a => have := hread a; simp only [accAfter]; omega
  | sub a => have := hread a; simp only [accAfter]; omega
  | sft l r => exact (shiftDigits_natAbs_le l r s.acc).trans (le_max_left _ _)
  | _ => simp only [accAfter]; omega

/-- Only an instruction that completes changes the accumulator: INP alone raises a fault. -/
theorem accAfter_of_fault {i : Instr} {s : State} (hs : s.fault = none) (h : faultAfter i s ≠ none) :
    accAfter i s = s.acc := by
  cases i with
  | inp a => rfl
  | _ => exact absurd hs h

end Sys2Proof.Machine
end

section
/-! One step (spec/40_step_cycle.md R90), over the components: what it answers in each of its four cases, and the
inversion the statements about whole steps are derived from. -/

namespace Sys2Proof.Machine

section
variable (u : State)
@[simp] theorem counted_mem : (counted u).mem = u.mem := by unfold counted; split <;> rfl
@[simp] theorem counted_acc : (counted u).acc = u.acc := by unfold counted; split <;> rfl
@[simp] theorem counted_flag : (counted u).flag = u.flag := by unfold counted; split <;> rfl
@[simp] theorem counted_pc : (counted u).pc = u.pc := by unfold counted; split <;> rfl
@[simp] theorem counted_inDeck : (counted u).inDeck = u.inDeck := by unfold counted; split <;> rfl
@[simp] theorem counted_outDeck : (counted u).outDeck = u.outDeck := by unfold counted; split <;> rfl
@[simp] theorem counted_run : (counted u).run = u.run := by unfold counted; split <;> rfl
@[simp] theorem counted_fault : (counted u).fault = u.fault := by unfold counted; split <;> rfl
end

theorem counted_steps_of_fault {u : State} (h : u.fault ≠ none) : (counted u).steps = u.steps := by
  rw [counted, if_neg h]

theorem counted_steps_of_no_fault {u : State} (h : u.fault = none) : (counted u).steps = u.steps + 1 := by
  rw [counted, if_pos h]; rfl

theorem step_of_faulted {s : State} (hf : s.fault ≠ none) : step s = .next s := by rw [step, if_pos hf]

theorem step_of_pc_outside {s : State} (hf : s.fault = none) (hpc : 99 < s.pc) :
    step s = .next (raiseFault (.addressOutOfRange s.pc) s) := by
  rw [step, if_neg (not_not.2 hf), fetchWord, memRead_outside (by omega)]

theorem step_of_rejected {s : State} {e : DecodeError} (hf : s.fault = none) (hpc : s.pc < 100)
    (hd : decode (Memory.read s.mem s.pc) = .error e) : step s = .next (raiseFault (decodeFault e) (advance s)) := by
  rw [step, if_neg (not_not.2 hf), fetchWord, memRead_cell hpc]
  simp only [hd]

theorem step_of_decoded {s : State} {i : Instr} (hf : s.fault = none) (hpc : s.pc < 100)
    (hd : decode (Memory.read s.mem s.pc) = .ok i) : step s = .next (counted (stateAfter i (advance s))) := by
  rw [step, if_neg (not_not.2 hf), fetchWord, memRead_cell hpc]
  simp only [hd, exec_eq_stateAfter (decode_wellFormed hd), countStep_next]

/-- A step without a handler changes nothing but `pc` and the fault latch, and advances `pc` at most. -/
def Idles (s t : State) : Prop :=
  t = { s with pc := t.pc, fault := t.fault } ∧ (t.pc = s.pc ∨ s.pc < 100 ∧ t.pc = s.pc + 1)

/-- A step completes or faults in the handler of the instruction at `pc`, or runs no handler. -/
theorem step_inv {s t : State} (h : step s = .next t) :
    Idles s t ∨ ∃ i, s.fault = none ∧ s.pc < 100 ∧ decode (Memory.read s.mem s.pc) = .ok i ∧
      i.wellFormed = true ∧ t = counted (stateAfter i (advance s)) := by
  rcases step_cases h with ⟨-, rfl⟩ | ⟨-, -, rfl⟩ | ⟨-, hpc, e, -, rfl⟩ | ⟨hf, hpc, i, u, hd, -, -⟩
  · exact .inl ⟨rfl, .inl rfl⟩
  · exact .inl ⟨rfl, .inl rfl⟩
  · exact .inl ⟨rfl, .inr ⟨hpc, rfl⟩⟩
  · rw [step_of_decoded hf hpc hd] at h
    cases h
    exact .inr ⟨i, hf, hpc, hd, decode_wellFormed hd, rfl⟩

section
variable {s t : State} (h : Idles s t)
include h
theorem Idles.mem_eq : t.mem = s.mem := by rw [h.1]
theorem Idles.acc_eq : t.acc = s.acc := by rw [h.1]
theorem Idles.flag_eq : t.flag = s.flag := by rw [h.1]
theorem Idles.inDeck_eq : t.inDeck = s.inDeck := by rw [h.1]
theorem Idles.outDeck_eq : t.outDeck = s.outDeck := by rw [h.1]
theorem Idles.steps_eq : t.steps = s.steps := by rw [h.1]
end

end Sys2Proof.Machine
end

section
/-! Invariants of a step and of a session (spec/10_state.md R22, R25, R27, R30; the spec's decision D10). -/

namespace Sys2Proof.Machine

/-- Every card put out by an instruction on cells in range is a cell's value (R27). -/
theorem outDeckAfter_inRange (i : Instr) {s : State} (hr : Memory.cellsInRange s.mem = true)
    (ho : s.outDeck.all cellInRange = true) : (outDeckAfter i s).all cellInRange = true := by
  rcases outDeckAfter_cases i s with h | ⟨a, -, h⟩
  · rw [h]; exact ho
  · rw [h, List.all_append, ho]; simp [Memory.read_inRange hr a]

/-- The handler of a well-formed instruction, entered with a reachable `pc`, keeps the state good. -/
theorem stateAfter_good {i : Instr} {s : State} (hi : i.wellFormed = true) (hpc : s.pc ≤ 100) (hs : s.Good) :
    (stateAfter i s).Good := by
  obtain ⟨hwf, hr, ho⟩ := hs
  obtain ⟨hwf', hr'⟩ := memAfter_keeps hi hpc hwf hr
  exact ⟨hwf', hr', outDeckAfter_inRange i hr ho⟩

/-- Good speaks of the memory and the output deck only. -/
theorem State.Good.of_eq {s t : State} (hs : s.Good) (hm : t.mem = s.mem) (ho : t.outDeck = s.outDeck) : t.Good := by
  unfold State.Good
  rw [hm, ho]
  exact hs

/-- Settles O47: a step without a handler leaves memory and output deck, and a handler keeps them good. -/
theorem stepKeepsTheStateGood : Obligations.StepKeepsTheStateGood := by
  intro s t hs h
  rcases step_inv h with hidle | ⟨i, -, hpc, -, hi, rfl⟩
  · exact hs.of_eq hidle.mem_eq hidle.outDeck_eq
  · have hgood : (stateAfter i (advance s)).Good := stateAfter_good hi (by simpa using hpc) hs
    exact hgood.of_eq (counted_mem _) (counted_outDeck _)

/-- Settles O48: an advanced `pc` is at most 100, and an address field is below 100. -/
theorem stepKeepsThePcReachable : Obligations.StepKeepsThePcReachable := by
  intro s t hs h
  unfold State.PcReachable at *
  rcases step_inv h with ⟨-, hpc⟩ | ⟨i, -, hpc, -, hi, rfl⟩
  · omega
  · rw [counted_pc]; exact pcAfter_le hi hpc

/-- Settles O46: the power-on memory lists nothing. -/
theorem powerOnStateIsGood : Obligations.PowerOnStateIsGood :=
  ⟨⟨Memory.wf_reset, rfl, rfl⟩, Nat.zero_le _, Nat.zero_le _⟩

/-- D10's bound: a counted step adds at most 999, and an uncounted one leaves the accumulator. -/
theorem step_keeps_accBounded {s t : State} (hs : s.Good) (hb : s.AccBounded) (h : step s = .next t) :
    t.AccBounded := by
  unfold State.AccBounded at *
  rcases step_inv h with hidle | ⟨i, hf, -, -, -, rfl⟩
  · rw [hidle.acc_eq, hidle.steps_eq]; exact hb
  · rw [counted_acc]
    by_cases hfault : (stateAfter i (advance s)).fault = none
    · rw [counted_steps_of_no_fault hfault]
      have hacc := accAfter_natAbs_le i (s := advance s) hs.2.1
      simp only [stateAfter_acc, stateAfter_steps, advance_acc, advance_steps] at *
      omega
    · rw [counted_steps_of_fault hfault, stateAfter_acc, accAfter_of_fault (s := advance s) hf hfault]
      exact hb

/-- A host's cell write that answers a next state latched a fault, or wrote a value in range to a cell (R209). -/
theorem hostWriteCell_cases {addr v : Int} {s t : State} (h : hostWriteCell addr v s = .next t) :
    (∃ f, t = raiseFault f s) ∨ ∃ a : Nat, a < 100 ∧ cellInRange v = true ∧ t = s.setMem (Memory.write s.mem a v) := by
  unfold hostWriteCell memWrite at h
  by_cases ha : addrInRange addr = true
  · rw [if_pos ha] at h
    by_cases hv : cellInRange v = true
    · simp only [hv, if_true] at h
      cases h
      have := addrInRange_iff.1 ha
      exact .inr ⟨addr.toNat, by omega, hv, rfl⟩
    · simp only [hv] at h
      cases h
  · rw [if_neg ha] at h
    cases h
    exact .inl ⟨_, rfl⟩

theorem hostReadCell_keeps_or_faults (addr : Int) (s : State) :
    (hostReadCell addr s).2 = s ∨ ∃ f, (hostReadCell addr s).2 = raiseFault f s := by
  unfold hostReadCell
  split
  · exact .inl rfl
  · exact .inr ⟨_, rfl⟩

/-- Every host operation keeps the state good and within D10's bound (R30). -/
theorem hostAct_keeps_good_bounded {op : HostOp} {s t : State} (hs : s.Good ∧ s.AccBounded)
    (h : hostAct op s = .next t) : t.Good ∧ t.AccBounded := by
  obtain ⟨⟨hwf, hr, ho⟩, hb⟩ := hs
  cases op with
  | construct => cases h; exact ⟨powerOnStateIsGood.1, powerOnStateIsGood.2.1⟩
  | reset => cases h; exact ⟨⟨hwf, hr, rfl⟩, Nat.zero_le _⟩
  | clearMemory => cases h; exact ⟨⟨rfl, rfl, ho⟩, hb⟩
  | loadProgram p =>
    rcases hostLoadProgram_cases h with ⟨a, rfl⟩ | ⟨hp, rfl⟩
    · exact ⟨⟨hwf, hr, ho⟩, hb⟩
    · obtain ⟨hwf', hr'⟩ := writeCells_keeps hp hwf hr
      exact ⟨⟨hwf', hr', ho⟩, hb⟩
  | readCell addr =>
    cases h
    rcases hostReadCell_keeps_or_faults addr s with heq | ⟨f, heq⟩
    · rw [heq]; exact ⟨⟨hwf, hr, ho⟩, hb⟩
    · rw [heq]; exact ⟨⟨hwf, hr, ho⟩, hb⟩
  | writeCell addr v =>
    rcases hostWriteCell_cases h with ⟨f, rfl⟩ | ⟨a, ha, hv, rfl⟩
    · exact ⟨⟨hwf, hr, ho⟩, hb⟩
    · exact ⟨⟨Memory.wf_write v ha hwf, Memory.cellsInRange_write a hv hr, ho⟩, hb⟩
  | setTarget n => cases h; exact ⟨⟨hwf, hr, ho⟩, hb⟩
  | setRun b => cases h; exact ⟨⟨hwf, hr, ho⟩, hb⟩
  | queueCard v => cases h; exact ⟨⟨hwf, hr, ho⟩, hb⟩
  | step => exact ⟨stepKeepsTheStateGood s t ⟨hwf, hr, ho⟩ h, step_keeps_accBounded ⟨hwf, hr, ho⟩ hb h⟩
  | run budget =>
    exact runLoop_keeps (fun u => u.Good ∧ u.AccBounded)
      (fun u v hu hstep => ⟨stepKeepsTheStateGood u v hu.1 hstep, step_keeps_accBounded hu.1 hu.2 hstep⟩)
      ⟨⟨hwf, hr, ho⟩, hb⟩ h

/-- What every host operation keeps, every session keeps. -/
theorem hostPerform_keeps (P : State → Prop) (hP : ∀ op s t, P s → hostAct op s = .next t → P t)
    (ops : List HostOp) {s : State} (hs : P s) : P (hostPerform ops s) := by
  induction ops generalizing s with
  | nil => exact hs
  | cons op rest ih =>
    unfold hostPerform
    split
    · rename_i t h; exact ih (hP op s t hs h)
    · exact ih hs
    · exact ih hs

/-- Settles O50, by induction on the session: every host operation keeps the two invariants of the power-on state. -/
theorem everySessionKeepsTheStateGood : Obligations.EverySessionKeepsTheStateGood := by
  intro ops
  exact hostPerform_keeps (fun u => u.Good ∧ u.AccBounded) (fun _ _ _ hs h => hostAct_keeps_good_bounded hs h) ops
    ⟨powerOnStateIsGood.1, powerOnStateIsGood.2.1⟩

end Sys2Proof.Machine
end

section
/-! The canonical form of the memory list is unique (log 2). -/

namespace Sys2Proof.Machine

/-- The cell of a canonical list's first entry reads otherwise in a canonical list of larger addresses. -/
theorem Memory.read_head_ne {lo a : Nat} {v : Int} {m n : Memory} (hm : Memory.wfFrom lo ((a, v) :: m) = true)
    (hn : Memory.wfFrom (a + 1) n = true) : Memory.read ((a, v) :: m) a ≠ Memory.read n a := by
  obtain ⟨-, -, hv, -⟩ := Memory.wfFrom_cons.1 hm
  rw [Memory.read_cons, if_pos rfl, Memory.read_below hn (Nat.lt_succ_self a)]
  exact hv

/-- Canonical lists above one bound that read alike are equal. -/
theorem Memory.eq_of_read_eq {m n : Memory} {lo : Nat} (hm : Memory.wfFrom lo m = true)
    (hn : Memory.wfFrom lo n = true) (h : ∀ a, a < 100 → Memory.read m a = Memory.read n a) : m = n := by
  induction m generalizing n lo with
  | nil =>
    cases n with
    | nil => rfl
    | cons d n =>
      obtain ⟨-, hb, -, -⟩ := Memory.wfFrom_cons.1 hn
      exact absurd (h d.1 hb).symm (Memory.read_head_ne hn rfl)
  | cons c m ih =>
    obtain ⟨a, v⟩ := c
    obtain ⟨hlo, ha, hv, hm'⟩ := Memory.wfFrom_cons.1 hm
    cases n with
    | nil => exact absurd (h a ha) (Memory.read_head_ne hm rfl)
    | cons d n =>
      obtain ⟨b, w⟩ := d
      obtain ⟨hlo', hb, hw, hn'⟩ := Memory.wfFrom_cons.1 hn
      rcases Nat.lt_trichotomy a b with hab | rfl | hab
      · exact absurd (h a ha)
          (Memory.read_head_ne hm (Memory.wfFrom_cons.2 ⟨hab, hb, hw, hn'⟩))
      · have hvw : v = w := by simpa [Memory.read_cons] using h a ha
        have htail : ∀ c, c < 100 → Memory.read m c = Memory.read n c := by
          intro c hc
          by_cases hca : c = a
          · rw [hca, Memory.read_below hm' (Nat.lt_succ_self a), Memory.read_below hn' (Nat.lt_succ_self a)]
          · simpa [Memory.read_cons, hca] using h c hc
        rw [hvw, ih hm' hn' htail]
      · exact absurd (h b hb).symm
          (Memory.read_head_ne hn (Memory.wfFrom_cons.2 ⟨hab, ha, hv, hm'⟩))

/-- Settles O10, by induction on the two lists: their first entries are for the same cell. -/
theorem canonicalMemoriesAreEqualWhenTheyReadAlike : Obligations.CanonicalMemoriesAreEqualWhenTheyReadAlike :=
  fun _ _ hm hn h => Memory.eq_of_read_eq hm hn h

end Sys2Proof.Machine
end

section
/-! Frames of the handlers (spec/10_state.md R32), STO's value (spec/42_load_store.md R121) and the order of the cards
(spec/10_state.md R26). -/

namespace Sys2Proof.Machine

/-- The state a handler answers is the one its component functions name. -/
theorem exec_inv {i : Instr} {s t : State} (h : exec i s = .next t) (hi : i.wellFormed = true) :
    t = stateAfter i s := by
  rw [exec_eq_stateAfter hi] at h
  cases h
  rfl

/-- Settles O25: none of the four has a cell to write. -/
theorem accumulatorInstructionsFrame : Obligations.AccumulatorInstructionsFrame := by
  intro i s t hi hform h
  obtain rfl := exec_inv h hi
  rcases hform with ⟨a, rfl | rfl | rfl⟩ | ⟨l, r, rfl⟩
  · exact ⟨fun _ => rfl, rfl, rfl, rfl, rfl, rfl, rfl, by simp⟩
  · exact ⟨fun _ => rfl, rfl, rfl, rfl, rfl, rfl, rfl, by simp⟩
  · exact ⟨fun _ => rfl, rfl, rfl, rfl, rfl, rfl, rfl, by simp⟩
  · exact ⟨fun _ => rfl, rfl, rfl, rfl, rfl, rfl, rfl, fun _ => rfl⟩

/-- Settles O26: OUT has no cell to write. -/
theorem outFrame : Obligations.OutFrame := by
  intro a s t ha h
  obtain rfl := exec_inv h (addressOk_iff.2 ha)
  exact ⟨fun _ => rfl, rfl, rfl, rfl, rfl, rfl, rfl, rfl⟩

/-- INP writes no cell but the one `inpDestination` names. -/
theorem inp_written_destination {a b : Nat} {s : State} {v : Int} (h : cellWritten (.inp a) s = some (b, v)) :
    inpDestination a = some b := by
  obtain ⟨hb, heq⟩ : b ≠ 0 ∧ Instr.inp a = .inp b := by simpa using cellWritten_target h
  cases heq
  rw [inpDestination_eq, if_neg hb]

/-- Settles O27: the cell an instruction writes is its target, and a rejected card leaves none to write. -/
theorem storingInstructionsFrame : Obligations.StoringInstructionsFrame := by
  intro a s t ha
  refine ⟨fun h => ?_, fun h => ?_⟩
  · obtain rfl := exec_inv h (addressOk_iff.2 ha)
    refine ⟨fun b hb => memAfter_read_other fun v hv => hb (inp_written_destination hv),
      rfl, rfl, rfl, rfl, rfl, rfl, ?_⟩
    rcases inp_fault_cases a s with hf | ⟨hf, hw⟩
    · exact .inl hf
    · exact .inr ⟨hf, fun b => congrArg (Memory.read · b) (memAfter_of_none hw)⟩
  · obtain rfl := exec_inv h (addressOk_iff.2 ha)
    refine ⟨fun b hb => Memory.read_write_other _ _ fun hba => hb ?_, rfl, rfl, rfl, rfl, rfl, rfl, rfl, rfl⟩
    rw [hba]; rfl

/-- The cell TAC and JMP write is the one `returnSlot` names, and HRS and an untaken TAC write none. -/
theorem control_written_slot {i : Instr} {a b : Nat} {s : State} {v : Int} (ha : a < 100)
    (hform : i = .tac a ∨ i = .jmp a ∨ i = .hrs a) (h : cellWritten i s = some (b, v)) :
    ¬ (returnSlot a ≠ some b ∨ i = .hrs a ∨ (i = .tac a ∧ s.flag = true)) := by
  rw [returnSlot_eq, if_neg ha.ne]
  rcases cellWritten_target h with rfl | ⟨-, rfl⟩ | ⟨rfl, c, rfl | ⟨hf, rfl⟩⟩
  · simp at hform
  · simp at hform
  · simp
  · simp [hf]

/-- Settles O28: the only cell the three can write is the return slot's. -/
theorem controlInstructionsFrame : Obligations.ControlInstructionsFrame := by
  intro i a s t ha hform h
  have hi : i.wellFormed = true := by rcases hform with rfl | rfl | rfl <;> exact addressOk_iff.2 ha
  obtain rfl := exec_inv h hi
  have hcells : ∀ b : Nat, (returnSlot a ≠ some b ∨ i = .hrs a ∨ (i = .tac a ∧ s.flag = true)) →
      Memory.read (stateAfter i s).mem b = Memory.read s.mem b :=
    fun b hb => memAfter_read_other fun v hv => control_written_slot ha hform hv hb
  rcases hform with rfl | rfl | rfl
  · exact ⟨rfl, rfl, rfl, rfl, rfl, rfl, fun _ => rfl, hcells⟩
  · exact ⟨rfl, rfl, rfl, rfl, rfl, rfl, fun _ => rfl, hcells⟩
  · exact ⟨rfl, rfl, rfl, rfl, rfl, rfl, fun hne => absurd rfl hne, hcells⟩

/-- The truncating remainder is that of the magnitude, with the sign (R8). -/
theorem tmod_eq_sign_mul (x : Int) (n : Nat) : tmod x n = x.sign * ((x.natAbs % n : Nat) : Int) := by
  have hnat : ∀ m : Nat, tmod (m : Int) n = (m : Int).sign * ((m % n : Nat) : Int) := by
    intro m
    cases m with
    | zero => simp
    | succ k => rw [Int.sign_natCast_of_ne_zero k.succ_ne_zero, one_mul]; rfl
  obtain ⟨m, rfl | rfl⟩ := Int.eq_nat_or_neg x
  · exact hnat m
  · rw [tmod, Int.neg_tmod, Int.sign_neg, Int.natAbs_neg, neg_mul]
    exact congrArg (- ·) (hnat m)

/-- Settles O17: word `600 + a` is row 6 of the table, and truncation shortens the magnitude. -/
theorem stoStoresThreeDigits : Obligations.StoStoresThreeDigits := by
  intro a s ha
  refine ⟨?_, tmod_eq_sign_mul s.acc 1000, exec_eq_stateAfter (i := .sto a) (addressOk_iff.2 ha) s⟩
  have hword : (600 + a : Int) = ((100 * 6 + a : Nat) : Int) := by omega
  rw [hword]
  exact decode_of_table (by decide) ha rfl

/-- Settles O58: queueing puts the first card at the tail, where INP takes it. -/
theorem cardsAreReadInQueueOrder : Obligations.CardsAreReadInQueueOrder := by
  intro v cs a s hdeck ha0 ha hlo hhi
  have hqueue : ∀ cards : List Int, hostPerform (cards.map .queueCard) s = s.setInDeck cards.reverse := by
    intro cards
    have h := hostPerform_queueCards cards [] s
    rwa [List.append_nil, hdeck, List.append_nil] at h
  have hread : cardRead (cs.reverse ++ [v]) = .ok v := cardRead_concat (cardInRange_iff.2 ⟨hlo, hhi⟩) _
  rw [hqueue, hqueue, List.reverse_cons]
  refine ⟨_, exec_eq_stateAfter (i := .inp a) (addressOk_iff.2 ha) _, ?_, List.dropLast_concat⟩
  have hw : cellWritten (.inp a) (s.setInDeck (cs.reverse ++ [v])) = some (a, v) := by
    simp only [cellWritten, State.setInDeck_inDeck, hread, if_neg ha0.ne']
  rw [stateAfter_mem, memAfter_of_written hw, Memory.read_write_same]

/-- Settles O41: no component function but TAC's reads the latch, and CLA, ADD and SUB overwrite it. -/
theorem latchIsReadOnlyByTac : Obligations.LatchIsReadOnlyByTac := by
  intro i s t b hi htac h
  obtain rfl := exec_inv h hi
  rw [exec_eq_stateAfter hi]
  refine ⟨?_, fun hlatch => ?_⟩
  · rintro ⟨a, rfl | rfl | rfl⟩
    · rfl
    · rfl
    · rfl
  · cases i with
    | tac a => exact absurd ⟨a, rfl⟩ htac
    | cla a => exact absurd ⟨a, .inl rfl⟩ hlatch
    | add a => exact absurd ⟨a, .inr (.inl rfl)⟩ hlatch
    | sub a => exact absurd ⟨a, .inr (.inr rfl)⟩ hlatch
    | _ => rfl

end Sys2Proof.Machine
end

section
/-! What a whole step can change (spec/10_state.md R23 to R27, spec/20_memory.md R57). -/

namespace Sys2Proof.Machine

/-- Settles O36: the handler finds the advanced `pc` and sets it in a transfer only. -/
theorem stepSetsThePcByTheOpcode : Obligations.StepSetsThePcByTheOpcode := by
  intro s t i hf hpc hd h
  rw [step_of_decoded hf (by omega) hd] at h
  cases h
  rw [counted_pc]
  exact ⟨fun htr => pcAfter_of_transfers (s := advance s) htr,
    fun htr => pcAfter_of_not_transfers (s := advance s) htr⟩

/-- Settles O37: the step's latch is its handler's, which only CLA, ADD and SUB write. -/
theorem stepLatchesTheSignOnlyInClaAddSub : Obligations.StepLatchesTheSignOnlyInClaAddSub := by
  intro s t h
  rcases step_inv h with hidle | ⟨i, -, -, hd, -, rfl⟩
  · exact .inl hidle.flag_eq
  · rw [counted_flag, counted_acc, hd]
    rcases flagAfter_cases i (advance s) with hkeep | ⟨a, ⟨rfl, hcla⟩ | ⟨rfl, hadd⟩ | ⟨rfl, hsub⟩⟩
    · exact .inl hkeep
    · exact .inr ⟨a, .inl ⟨rfl, hcla⟩⟩
    · exact .inr ⟨a, .inr (.inl ⟨rfl, hadd⟩)⟩
    · exact .inr ⟨a, .inr (.inr ⟨rfl, hsub⟩)⟩

/-- Settles O38: the step's accumulator is its handler's, which only the four write. -/
theorem stepWritesTheAccumulatorOnlyInFourInstructions :
    Obligations.StepWritesTheAccumulatorOnlyInFourInstructions := by
  intro s t h hne
  rcases step_inv h with hidle | ⟨i, -, -, hd, -, rfl⟩
  · exact absurd hidle.acc_eq hne
  · rw [counted_acc] at hne
    rw [hd]
    rcases accAfter_cases i (advance s) with hkeep | ⟨a, hform⟩ | ⟨l, r, rfl⟩
    · exact absurd hkeep hne
    · exact .inl ⟨a, by simpa using hform⟩
    · exact .inr ⟨l, r, rfl⟩

/-- Settles O39: a cell that reads otherwise is the one the handler wrote. -/
theorem stepWritesACellOnlyAsTarget : Obligations.StepWritesACellOnlyAsTarget := by
  intro s t b h hne
  rcases step_inv h with hidle | ⟨i, -, -, hd, -, rfl⟩
  · exact absurd (by rw [hidle.mem_eq]) hne
  · rw [counted_mem] at hne
    obtain ⟨v, hw⟩ := cellWritten_of_read_ne (s := advance s) hne
    rw [hd]
    simpa using cellWritten_target hw

/-- Settles O40: the step's decks are its handler's; only INP shortens one and only OUT lengthens one. -/
theorem stepMovesAtMostOneCard : Obligations.StepMovesAtMostOneCard := by
  intro s t h
  rcases step_inv h with hidle | ⟨i, -, -, hd, -, rfl⟩
  · exact ⟨.inl hidle.inDeck_eq, .inl hidle.outDeck_eq⟩
  · rw [counted_inDeck, counted_outDeck, hd]
    refine ⟨?_, ?_⟩
    · rcases inDeckAfter_cases i (advance s) with hkeep | ⟨a, v, rfl, htail⟩
      · exact .inl hkeep
      · exact .inr ⟨a, v, rfl, htail⟩
    · rcases outDeckAfter_cases i (advance s) with hkeep | ⟨a, rfl, hout⟩
      · exact .inl hkeep
      · exact .inr ⟨a, rfl, hout⟩

/-- A handler appends the same cards to whatever output deck it finds, and does the rest without it (R27). -/
theorem stateAfter_setOutDeck (i : Instr) (s : State) : ∃ e : List Int, outDeckAfter i s = s.outDeck ++ e ∧
    ∀ d, stateAfter i (s.setOutDeck d) = (stateAfter i s).setOutDeck (d ++ e) := by
  cases i with
  | out a => exact ⟨[Memory.read s.mem a], rfl, fun _ => rfl⟩
  | _ =>
    refine ⟨[], (List.append_nil _).symm, fun d => ?_⟩
    rw [List.append_nil]
    rfl

theorem counted_setOutDeck (u : State) (d : List Int) : counted (u.setOutDeck d) = (counted u).setOutDeck d := by
  unfold counted
  split <;> rename_i h <;> simp only [State.setOutDeck_fault] at h
  · rw [if_pos h]; rfl
  · rw [if_neg h]

/-- Settles O43, by the four cases of a step: only a handler can append a card. -/
theorem outputDeckIsNeverRead : Obligations.OutputDeckIsNeverRead := by
  intro s t d h
  rcases step_cases h with ⟨hf, rfl⟩ | ⟨hf, hpc, rfl⟩ | ⟨hf, hpc, e, hd, rfl⟩ | ⟨hf, hpc, i, u, hd, he, rfl⟩
  · exact ⟨[], by simp, by rw [List.append_nil]; exact step_of_faulted hf⟩
  · exact ⟨[], by simp, by rw [List.append_nil]; exact step_of_pc_outside hf hpc⟩
  · exact ⟨[], by simp, by rw [List.append_nil]; exact step_of_rejected hf hpc hd⟩
  · obtain rfl := exec_inv he (decode_wellFormed hd)
    obtain ⟨e, happ, hset⟩ := stateAfter_setOutDeck i (advance s)
    refine ⟨e, by rw [counted_outDeck]; exact happ, ?_⟩
    have hstep : step (s.setOutDeck d) = .next (counted (stateAfter i ((advance s).setOutDeck d))) :=
      step_of_decoded (s := s.setOutDeck d) hf hpc hd
    rw [hset, counted_setOutDeck] at hstep
    exact hstep

end Sys2Proof.Machine
end

section
/-! The access primitives (spec/20_memory.md R52, R53) and the fetch of a stored word (spec/20_memory.md R62). -/

namespace Sys2Proof.Machine

/-- Settles O8, by the two answers of MemRead. -/
theorem memReadChecksTheBounds : Obligations.MemReadChecksTheBounds :=
  fun s => ⟨fun _ ha => memRead_cell ha s, fun _ ha => memRead_outside ha s⟩

/-- MemRead sees nothing of a state but the cell it reads (R52). -/
theorem memRead_congr {b : Int} {s t : State}
    (h : ∀ n : Nat, b = n → Memory.read t.mem n = Memory.read s.mem n) : memRead b t = memRead b s := by
  by_cases hb : b < 0 ∨ 99 < b
  · rw [memRead_outside hb, memRead_outside hb]
  · lift b to Nat using by omega
    rw [memRead_cell (by omega), memRead_cell (by omega), h b rfl]

/-- MemRead at every address but that of the cell written answers as before the write (R53). -/
theorem memRead_write_other {a : Nat} {b : Int} (hb : b ≠ a) (v : Int) {s t : State}
    (hmem : t.mem = Memory.write s.mem a v) : memRead b t = memRead b s := by
  refine memRead_congr fun n hn => ?_
  have hna : n ≠ a := by rintro rfl; exact hb hn
  rw [hmem, Memory.read_write_other _ _ hna]

/-- Settles O9: the state a write in range answers differs in the memory list only. -/
theorem memWriteChangesOneCell : Obligations.MemWriteChangesOneCell := by
  intro addr v s
  refine ⟨fun hlo hhi => ?_, fun hout => memWrite_outside hout v s⟩
  lift addr to Nat using hlo
  have ha : addr < 100 := by omega
  refine ⟨_, memWrite_cell ha v s, ?_, fun b hb => memRead_write_other hb v rfl, rfl⟩
  rw [memRead_cell ha, State.setMem_mem, Memory.read_write_same]

/-- Settles O44: the step's memory is the old one with the store's cell written, and a fetch is a MemRead at `pc`. -/
theorem nextFetchSeesTheStore : Obligations.NextFetchSeesTheStore := by
  intro s a ha hf hpc hword
  have hd : decode (Memory.read s.mem s.pc) = .ok (.sto a) := hword ▸ (stoStoresThreeDigits a s ha).1
  have hmem : (counted (stateAfter (.sto a) (advance s))).mem = Memory.write s.mem a (tmod s.acc 1000) :=
    counted_mem _
  refine ⟨_, step_of_decoded hf (by omega) hd, counted_pc _, (counted_fault _).trans hf, ?_, fun b hb => ?_⟩
  · rw [fetchWord, memRead_cell ha, hmem, Memory.read_write_same]
  · exact memRead_write_other (by exact_mod_cast hb) _ hmem

end Sys2Proof.Machine
end

section
/-! The decoder and the encoder as inverses (spec/30_encoding.md R71 to R76). -/

namespace Sys2Proof

theorem Instr.opcode_lt (i : Instr) : i.opcode < 10 := by cases i <;> simp [Instr.opcode]

theorem encode_eq (i : Instr) : encode i = ((100 * i.opcode + i.addressField : Nat) : Int) := rfl

/-- A well-formed instruction stands in the table at its own opcode digit and address field (R74, R76). -/
theorem handlerTable_of_wellFormed {i : Instr} (hi : i.wellFormed = true) :
    handlerTable i.opcode i.addressField = some i := by
  cases i with
  | sft l r =>
    simp only [Instr.wellFormed, Bool.and_eq_true, digitOk_iff] at hi
    have hl : (10 * l + r) / 10 = l := by omega
    have hr : (10 * l + r) % 10 = r := by omega
    simp [handlerTable, Instr.opcode, Instr.addressField, leftCount, rightCount, hl, hr]
  | _ => rfl

/-- Settles O4: the encoding is the word of the instruction's own table entry. -/
theorem decodeEncodeRoundTrip : Obligations.DecodeEncodeRoundTrip := fun i hi =>
  decode_of_table i.opcode_lt (Instr.addressField_lt hi) (handlerTable_of_wellFormed hi)

/-- Settles O5: a decoded word is `100 * k + a` for its table entry, which has opcode `k` and address field `a`. -/
theorem decodedWordIsItsEncoding : Obligations.DecodedWordIsItsEncoding := by
  intro w i h
  obtain ⟨k, a, hk, ha, rfl, hi⟩ := decode_ok_table h
  obtain ⟨rfl, rfl⟩ := handlerTable_fields hk hi
  exact ⟨decode_wellFormed h, encode_eq i, by omega, by omega⟩

/-- A word of 0..999 is an opcode digit and an address field (R70). -/
theorem word_eq_of_range {w : Int} (hlo : 0 ≤ w) (hhi : w ≤ 999) :
    ∃ k a : Nat, k < 10 ∧ a < 100 ∧ w = ((100 * k + a : Nat) : Int) := by
  lift w to Nat using hlo
  exact ⟨w / 100, w % 100, by omega, by omega, by omega⟩

/-- Settles O6: every opcode digit has a table entry, and the word's quotient and remainder are the entry's fields. -/
theorem everyNonNegativeWordIsAnInstruction : Obligations.EveryNonNegativeWordIsAnInstruction := by
  intro w hlo hhi
  obtain ⟨k, a, hk, ha, rfl⟩ := word_eq_of_range hlo hhi
  obtain ⟨i, hi⟩ := handlerTable_total hk a
  obtain ⟨rfl, rfl⟩ := handlerTable_fields hk hi
  exact ⟨i, decode_of_table hk ha hi, (opcodeOf_word ha).symm, (addressOf_word ha).symm⟩

/-- Settles O1: the rows are the table's entries for the ten opcode digits. -/
theorem everyOpcodeRowDecodes : Obligations.EveryOpcodeRowDecodes := by
  intro a ha
  have row (k : Nat) (hk : k < 10) {i : Instr} (h : handlerTable k a = some i) {w : Int} (hw : w = 100 * k + a) :
      decode w = .ok i := by
    subst hw
    exact_mod_cast decode_of_table hk ha h
  refine ⟨row 0 ?_ rfl ?_, row 1 ?_ rfl ?_, row 2 ?_ rfl ?_, row 3 ?_ rfl ?_, row 4 ?_ rfl ?_, row 5 ?_ rfl ?_,
    row 6 ?_ rfl ?_, row 7 ?_ rfl ?_, row 8 ?_ rfl ?_, row 9 ?_ rfl ?_⟩ <;> omega

/-- Settles O3: the word is `400 + a`, and the counts are the two digits of `a`. -/
theorem sftCountsAreTheWordsDigits : Obligations.SftCountsAreTheWordsDigits := by
  intro w hlo hhi
  obtain ⟨a, rfl⟩ : ∃ a : Nat, w = 400 + a := ⟨(w - 400).toNat, by omega⟩
  have ha : a < 100 := by omega
  obtain ⟨-, -, -, -, hdecode, -⟩ := everyOpcodeRowDecodes a ha
  have haddr : tmod (400 + a) 100 = a := addressOf_word (k := 4) ha
  have habs : (400 + a : Int).natAbs = 400 + a := by omega
  refine ⟨a / 10, a % 10, hdecode, ?_, ?_, ?_, ?_⟩
  · rw [digit, habs]; omega
  · rw [digit, habs]; omega
  · rw [haddr]; rfl
  · rw [haddr]; rfl

end Sys2Proof
end

section
/-! One step and the run loop (spec/40_step_cycle.md R90, R96 to R100): every step answers, what it does with the run
latch and the counter, and how a run ends. -/

namespace Sys2Proof.Machine

/-! ### One step -/

/-- Settles O30, by the four cases of a step. -/
theorem everyStepAnswersANextState : Obligations.EveryStepAnswersANextState := by
  intro s
  by_cases hf : s.fault = none
  · by_cases hpc : s.pc < 100
    · cases hd : decode (Memory.read s.mem s.pc) with
      | error e => exact ⟨_, step_of_rejected hf hpc hd⟩
      | ok i => exact ⟨_, step_of_decoded hf hpc hd⟩
    · exact ⟨_, step_of_pc_outside hf (by omega)⟩
  · exact ⟨_, step_of_faulted hf⟩

/-- Settles O29: the advanced state is the one whose handler the step runs and counts. -/
theorem stepRunsTheDecodedInstruction : Obligations.StepRunsTheDecodedInstruction := by
  intro s t i hf hpc hd h
  obtain rfl : t = stateAfter i (advance s) := exec_inv h (decode_wellFormed hd)
  exact step_of_decoded hf (by omega) hd

/-- Settles O31: INP latches a card's fault at most, and every other handler keeps the latch. -/
theorem onlyInpRaisesAFault : Obligations.OnlyInpRaisesAFault := by
  intro i s t hi hf h
  obtain rfl := exec_inv h hi
  cases i with
  | inp a =>
    rcases inp_fault_cases a s with hkeep | ⟨⟨v, hv⟩, -⟩
    · exact .inl (hkeep.trans hf)
    · exact .inr ⟨a, v, rfl, hv⟩
  | _ => exact .inl hf

/-- A step runs no handler, leaves a fault latched and reads neither the run latch nor the counter; or it runs the
handler of the instruction at `pc` and counts it. -/
theorem step_faults_or_executes {s t : State} (h : step s = .next t) :
    (t.fault ≠ none ∧ t.run = s.run ∧ t.steps = s.steps ∧
      ∀ b n, step ((s.setRun b).setSteps n) = .next ((t.setRun b).setSteps n)) ∨
    ∃ i, s.fault = none ∧ s.pc < 100 ∧ decode (Memory.read s.mem s.pc) = .ok i ∧
      t = counted (stateAfter i (advance s)) := by
  rcases step_cases h with ⟨hf, rfl⟩ | ⟨hf, hpc, rfl⟩ | ⟨hf, hpc, e, hd, rfl⟩ | ⟨hf, hpc, i, u, hd, he, rfl⟩
  · exact .inl ⟨hf, rfl, rfl, fun _ _ => step_of_faulted hf⟩
  · exact .inl ⟨by simp, rfl, rfl, fun _ _ => step_of_pc_outside hf hpc⟩
  · exact .inl ⟨by simp, rfl, rfl, fun _ _ => step_of_rejected hf hpc hd⟩
  · obtain rfl := exec_inv he (decode_wellFormed hd)
    exact .inr ⟨i, hf, hpc, hd, rfl⟩

/-! ### The step counter (R97) -/

theorem counted_of_fault {u : State} (h : u.fault ≠ none) : counted u = u := if_neg h

theorem counted_of_no_fault {u : State} (h : u.fault = none) : counted u = u.setSteps (u.steps + 1) := if_pos h

/-- The count adds the same to whatever counter it finds. -/
theorem counted_setSteps (u : State) : ∃ k : Nat, (counted u).steps = u.steps + k ∧
    ∀ n, counted (u.setSteps n) = (counted u).setSteps (n + k) := by
  by_cases hf : u.fault = none
  · exact ⟨1, counted_steps_of_no_fault hf, fun n => by
      rw [counted_of_no_fault hf]; exact counted_of_no_fault (u := u.setSteps n) hf⟩
  · exact ⟨0, counted_steps_of_fault hf, fun n => by
      rw [counted_of_fault hf]; exact counted_of_fault (u := u.setSteps n) hf⟩

/-- No handler reads or writes the counter. -/
theorem stateAfter_setSteps (i : Instr) (s : State) (n : Nat) :
    stateAfter i (s.setSteps n) = (stateAfter i s).setSteps n := rfl

/-- Settles O35: only the count after a handler touches the counter, and it looks at the fault latch alone. -/
theorem stepCounterCountsAndIsNeverRead : Obligations.StepCounterCountsAndIsNeverRead := by
  intro s t h
  rcases step_faults_or_executes h with ⟨ht, hrun, hsteps, hset⟩ | ⟨i, hf, hpc, hd, rfl⟩
  · refine ⟨fun _ hnone => absurd hnone ht, fun _ => hsteps, fun n => ⟨0, hsteps, ?_⟩⟩
    rw [hrun]
    exact hset s.run n
  · refine ⟨fun _ ht => counted_steps_of_no_fault ((counted_fault _).symm.trans ht),
      fun ht => counted_steps_of_fault fun hnone => ht ((counted_fault _).trans hnone), fun n => ?_⟩
    obtain ⟨k, hk, hset⟩ := counted_setSteps (stateAfter i (advance s))
    have hstep : step (s.setSteps n) = .next (counted (stateAfter i ((advance s).setSteps n))) :=
      step_of_decoded (s := s.setSteps n) hf hpc hd
    rw [stateAfter_setSteps, hset] at hstep
    exact ⟨k, hk, hstep⟩

/-! ### The run latch (R98) -/

/-- HRS alone writes the run latch (R28, R153). -/
theorem runAfter_cases (i : Instr) (s : State) :
    runAfter i s = s.run ∨ ∃ a, i = .hrs a ∧ runAfter i s = false := by
  cases i with
  | hrs a => exact .inr ⟨a, rfl, rfl⟩
  | _ => exact .inl rfl

/-- A handler keeps a clear run latch clear, and otherwise does the same for both its values. -/
theorem stateAfter_setRun (i : Instr) {s : State} (hs : s.run = true) (b : Bool) :
    stateAfter i (s.setRun b) = (stateAfter i s).setRun (runAfter i s && b) := by
  have hrun : runAfter i (s.setRun b) = (runAfter i s && b) := by
    cases i with
    | hrs a => rfl
    | _ => simp [runAfter, hs]
  rw [← hrun]
  rfl

theorem counted_setRun (u : State) (b : Bool) : counted (u.setRun b) = (counted u).setRun b := by
  rw [counted, counted, apply_ite (State.setRun · b)]
  rfl

/-- Settles O42: fetch and decode do not see the run latch, and a handler's only use of it is to clear it. -/
theorem runLatchIsNeverRead : Obligations.RunLatchIsNeverRead := by
  intro s t b hrun h
  rcases step_faults_or_executes h with ⟨-, ht, hsteps, hset⟩ | ⟨i, hf, hpc, hd, rfl⟩
  · rw [ht, hrun, Bool.true_and, hsteps]
    exact hset b s.steps
  · have hstep : step (s.setRun b) = .next (counted (stateAfter i ((advance s).setRun b))) :=
      step_of_decoded (s := s.setRun b) hf hpc hd
    rw [stateAfter_setRun i (s := advance s) hrun, counted_setRun] at hstep
    rw [counted_run]
    exact hstep

/-- A step that clears the run latch executed an HRS, whose address field `pc` then holds (R153). -/
theorem hrs_of_step_clears_run {s t : State} (h : step s = .next t) (hs : s.run = true) (ht : t.run = false) :
    ∃ a, decode (Memory.read s.mem s.pc) = .ok (.hrs a) ∧ t.pc = a := by
  rcases step_faults_or_executes h with ⟨-, hkeep, -⟩ | ⟨i, -, -, hd, rfl⟩
  · simp [hkeep, hs] at ht
  · rcases runAfter_cases i (advance s) with hkeep | ⟨a, rfl, -⟩
    · simp [hkeep, hs] at ht
    · exact ⟨a, hd, counted_pc _⟩

/-! ### The run loop (R99, R100) -/

theorem State.running_iff {s : State} : s.running = true ↔ s.run = true ∧ s.fault = none := by simp [State.running]

theorem State.running_false_iff {s : State} : s.running = false ↔ s.run = false ∨ s.fault ≠ none := by
  rw [← Bool.not_eq_true, State.running_iff, not_and_or, Bool.not_eq_true]

theorem runLoop_of_not_running {s : State} (h : s.running = false) (n : Nat) : runLoop n s = .next s := by
  cases n with
  | zero => rfl
  | succ k => simp [runLoop, h]

theorem runLoop_succ_of_running {s u : State} (h : s.running = true) (hstep : step s = .next u) (k : Nat) :
    runLoop (k + 1) s = runLoop k u := by
  simp [runLoop, h, hstep]

/-- A run goes on from where a smaller budget left it (R101). -/
theorem runLoop_add {n : Nat} {s t : State} (h : runLoop n s = .next t) (m : Nat) :
    runLoop (n + m) s = runLoop m t := by
  induction n generalizing s with
  | zero => cases h; rw [Nat.zero_add]
  | succ k ih =>
    cases hr : s.running with
    | true =>
      obtain ⟨u, hu⟩ := everyStepAnswersANextState s
      rw [runLoop_succ_of_running hr hu] at h
      rw [Nat.succ_add, runLoop_succ_of_running hr hu, ih h]
    | false =>
      rw [runLoop_of_not_running hr] at h
      cases h
      rw [runLoop_of_not_running hr, runLoop_of_not_running hr]

/-- Settles O59: the rest of a larger budget is a run from the end state, which executes nothing. -/
theorem runStopsAtItsEnd : Obligations.RunStopsAtItsEnd := by
  refine ⟨fun n s hend => runLoop_of_not_running (State.running_false_iff.2 hend) n, ?_⟩
  intro n m s t h hend hnm
  obtain ⟨d, rfl⟩ := Nat.exists_eq_add_of_le hnm
  rw [runLoop_add h, runLoop_of_not_running (State.running_false_iff.2 hend)]

/-- A run that ended took a last step, from a state that was still running. -/
theorem runLoop_last_step {n : Nat} {s t : State} (hs : s.running = true) (h : runLoop n s = .next t)
    (ht : t.running = false) :
    ∃ k u, k < n ∧ runLoop k s = .next u ∧ u.running = true ∧ step u = .next t := by
  induction n generalizing s with
  | zero => cases h; simp [hs] at ht
  | succ k ih =>
    obtain ⟨v, hv⟩ := everyStepAnswersANextState s
    rw [runLoop_succ_of_running hs hv] at h
    cases hr : v.running with
    | true =>
      obtain ⟨j, u, hj, hrun, hu, hstep⟩ := ih hr h
      exact ⟨j + 1, u, by omega, (runLoop_succ_of_running hs hv j).trans hrun, hu, hstep⟩
    | false =>
      rw [runLoop_of_not_running hr] at h
      cases h
      exact ⟨0, s, Nat.succ_pos k, rfl, hs, hv⟩

/-- Settles O60: the run's last step cleared the run latch. -/
theorem haltedRunEndedInHrs : Obligations.HaltedRunEndedInHrs := by
  intro n s t hrun hf h ht _
  obtain ⟨k, u, hk, hloop, hu, hstep⟩ :=
    runLoop_last_step (State.running_iff.2 ⟨hrun, hf⟩) h (State.running_false_iff.2 (.inl ht))
  obtain ⟨hurun, huf⟩ := State.running_iff.1 hu
  obtain ⟨a, hd, hpc⟩ := hrs_of_step_clears_run hstep hurun ht
  exact ⟨k, u, a, hk, hloop, hurun, huf, hstep, hd, hpc⟩

end Sys2Proof.Machine
end

section
/-! The two I/O handlers on their plain cases (spec/41_io.md R110, R111): OUT of any cell, and INP when no card is
queued. -/

namespace Sys2Proof.Machine

/-- Settles O16: word `500 + a` is row 5 of the table, and OUT's one operand is the cell's whole value. -/
theorem outAppendsTheCell : Obligations.OutAppendsTheCell := by
  intro a s ha
  obtain ⟨-, -, -, -, -, hdecode, -⟩ := everyOpcodeRowDecodes a ha
  exact ⟨hdecode, exec_eq_stateAfter (i := .out a) (addressOk_iff.2 ha) s⟩

/-- With no card queued INP stores 0 to the cell its address names, and consumes nothing (R110). -/
theorem execInp_of_empty_deck (a : Nat) {s : State} (h : s.inDeck = []) :
    execInp a s = settle s (storeTo (inpDestination a) 0 s) := by
  rw [execInp, if_neg (by simp), takeCard_empty h]

/-- Settles O22: the guarded address 0 names no cell to store to, every other address names its own. -/
theorem inpOfAnEmptyDeckStoresZero : Obligations.InpOfAnEmptyDeckStoresZero := by
  intro a s ha hdeck
  refine (execInp_of_empty_deck a hdeck).trans ?_
  rw [inpDestination_eq]
  by_cases h0 : a = 0
  · rw [if_pos h0, if_pos h0, storeTo_none, settle_ok]
  · rw [if_neg h0, if_neg h0, storeTo_cell ha, settle_ok]
    rfl

end Sys2Proof.Machine
end

section
/-! CLA of any cell (spec/42_load_store.md R120). -/

namespace Sys2Proof.Machine

/-- Settles O11: word `100 + a` is row 1 of the table, and CLA's one operand is the cell, whose range is a cell's. -/
theorem claLoadsTheCell : Obligations.ClaLoadsTheCell := by
  intro a s ha
  obtain ⟨-, hdecode, -⟩ := everyOpcodeRowDecodes a ha
  refine ⟨hdecode, exec_eq_stateAfter (i := .cla a) (addressOk_iff.2 ha) s, fun hcells => ?_⟩
  have hrange := cellInRange_iff.1 (Memory.read_inRange hcells a)
  omega

end Sys2Proof.Machine
end

section
/-! ADD, SUB and SFT (spec/43_arithmetic.md): the two exact operations with their two latch rules (R130, R132), and SFT
as its parts (R133). -/

namespace Sys2Proof.Machine

/-- The left shift is the repeated product by ten of R133. -/
theorem shiftLeft_eq_iterate (n : Nat) (t : Int) : shiftLeft n t = (fun x => x * 10)^[n] t := by
  rw [shiftLeft_eq, mul_right_iterate_apply]

/-- The right shift is the repeated truncating quotient by ten of R133. -/
theorem shiftRight_eq_iterate (n : Nat) (t : Int) : shiftRight n t = (fun x => tdiv x 10)^[n] t := by
  induction n generalizing t with
  | zero => rfl
  | succ k ih => rw [shiftRight_succ, ih, Function.iterate_succ_apply]

/-- A value cut to the window already is cut no further. -/
theorem accWindow_accWindow (t : Int) : accWindow (accWindow t) = accWindow t := Int.tmod_tmod t 10000

/-- Cutting to the window before a left shift loses nothing that the cut after it keeps. -/
theorem accWindow_shiftLeft_accWindow (l : Nat) (t : Int) :
    accWindow (shiftLeft l (accWindow t)) = accWindow (shiftLeft l t) := by
  simp only [shiftLeft_eq, accWindow_eq, tmod]
  rw [Int.mul_tmod, Int.tmod_tmod, ← Int.mul_tmod]

/-- SFT 00 is the cut to the window alone (R131). -/
theorem shiftDigits_zero_zero (t : Int) : shiftDigits 0 0 t = accWindow t := rfl

/-- SFT `lr` is SFT 00, then `l` products by ten, the cut to four digits, and `r` quotients by ten (R133). -/
theorem shiftDigits_eq_parts (l r : Nat) (t : Int) :
    shiftDigits l r t =
      (fun x => tdiv x 10)^[r] (tmod ((fun x => x * 10)^[l] (shiftDigits 0 0 t)) 10000) := by
  rw [shiftDigits_zero_zero, ← shiftLeft_eq_iterate, ← shiftRight_eq_iterate, ← accWindow_eq,
    accWindow_shiftLeft_accWindow, shiftDigits]

/-- SFT `l0` followed by SFT `0r` is SFT `lr`: the second cut finds nothing to remove (R133). -/
theorem shiftDigits_zero_left_shiftDigits (l r : Nat) (t : Int) :
    shiftDigits 0 r (shiftDigits l 0 t) = shiftDigits l r t :=
  congrArg (shiftRight r) (accWindow_accWindow (shiftLeft l t))

/-- SFT writes the shifted value to the accumulator and nothing else, whatever its counts (R131). -/
theorem exec_sft (l r : Nat) (s : State) : exec (.sft l r) s = .next (s.setAcc (shiftDigits l r s.acc)) := rfl

/-- Settles O15: the states are those SFT 00, SFT `lr` and SFT `l0` leave, so each clause is one about `shiftDigits`. -/
theorem sftEqualsItsParts : Obligations.SftEqualsItsParts := by
  intro l r s
  refine ⟨_, _, _, exec_sft 0 0 s, exec_sft l r s, shiftDigits_eq_parts l r s.acc, shiftDigits_natAbs_le l r s.acc,
    exec_sft l 0 s, ?_⟩
  rw [exec_sft, State.setAcc_acc, shiftDigits_zero_left_shiftDigits]
  rfl

/-- Settles O12: word `200 + a` is row 2 of the table, and ADD latches the sign of the cell it reads. -/
theorem addAddsAndLatchesTheOperand : Obligations.AddAddsAndLatchesTheOperand := by
  intro a s ha
  obtain ⟨-, -, hdecode, -⟩ := everyOpcodeRowDecodes a ha
  exact ⟨hdecode, exec_eq_stateAfter (i := .add a) (addressOk_iff.2 ha) s⟩

/-- Settles O13: word `700 + a` is row 7 of the table, and SUB latches the sign of the difference it leaves. -/
theorem subSubtractsAndLatchesTheResult : Obligations.SubSubtractsAndLatchesTheResult := by
  intro a s ha
  obtain ⟨-, -, -, -, -, -, -, hdecode, -⟩ := everyOpcodeRowDecodes a ha
  exact ⟨hdecode, exec_eq_stateAfter (i := .sub a) (addressOk_iff.2 ha) s⟩

end Sys2Proof.Machine
end

section
/-! JMP and HRS (spec/44_control.md R151 to R153): the return instruction a jump leaves in cell 99, and the halt. -/

namespace Sys2Proof.Machine

/-- Settles O20: word `800 + a` is row 8 of the table, and only destination 100 leaves cell 99 as it was. -/
theorem jmpRecordsTheReturn : Obligations.JmpRecordsTheReturn := by
  refine ⟨fun a ha => ?_, fun a s => ⟨rfl, fun hne => ?_, fun heq => ?_⟩⟩
  · obtain ⟨-, -, -, -, -, -, -, -, hdecode, -⟩ := everyOpcodeRowDecodes a ha
    exact hdecode
  · exact (jump_eq a s).trans (by rw [if_neg hne]; rfl)
  · exact (jump_eq a s).trans (by rw [if_pos heq, heq]; rfl)

/-- Settles O21: word `900 + a` is row 9 of the table, and HRS sets its two components without a test. -/
theorem hrsHaltsAndSetsTheTarget : Obligations.HrsHaltsAndSetsTheTarget := by
  refine ⟨fun a ha => ?_, fun a s => rfl⟩
  obtain ⟨-, -, -, -, -, -, -, -, -, hdecode⟩ := everyOpcodeRowDecodes a ha
  exact hdecode

/-- A step of JMP completes at its destination and records the advanced `pc` in cell 99 (R94, R152). -/
theorem step_of_jmp {s : State} {a : Nat} (ha : a < 100) (hf : s.fault = none) (hpc : s.pc < 100)
    (hword : Memory.read s.mem s.pc = 800 + a) :
    ∃ t : State, step s = .next t ∧ t.fault = none ∧ t.pc = a ∧
      Memory.read t.mem 99 = 800 + ((s.pc + 1 : Nat) : Int) := by
  have hd : decode (Memory.read s.mem s.pc) = .ok (.jmp a) := hword ▸ jmpRecordsTheReturn.1 a ha
  have hmem : (counted (stateAfter (.jmp a) (advance s))).mem =
      Memory.write s.mem 99 (800 + ((s.pc + 1 : Nat) : Int)) := counted_mem _
  refine ⟨_, step_of_decoded hf hpc hd, (counted_fault _).trans hf, counted_pc _, ?_⟩
  rw [hmem, Memory.read_write_same]

/-- Settles O45: the recorded word `800 + (p + 1)` is the JMP to `p + 1` for `p <= 98` and the word 900 for `p = 99`, and
JMP 99 goes on to the record itself, a jump taken from cell 99. -/
theorem jumpLeavesItsReturnInstruction : Obligations.JumpLeavesItsReturnInstruction := by
  intro s a ha hf hpc hword
  obtain ⟨t, hstep, htf, htpc, hrecord⟩ := step_of_jmp ha hf (by omega) hword
  refine ⟨t, hstep, htpc, fun hp => ?_, fun hp => ?_, fun hp ha99 => ?_⟩
  · rw [hrecord]
    exact jmpRecordsTheReturn.1 (s.pc + 1) (by omega)
  · have h900 : Memory.read t.mem 99 = 900 := by omega
    exact ⟨h900, h900 ▸ hrsHaltsAndSetsTheTarget.1 0 (by decide)⟩
  · have ht99 : t.pc = 99 := htpc.trans ha99
    obtain ⟨u, hstep', -, hupc, hrecord'⟩ := step_of_jmp (a := s.pc + 1) (by omega) htf (by omega) (ht99 ▸ hrecord)
    exact ⟨u, hstep', hupc, by omega⟩

end Sys2Proof.Machine
end

section
/-! The host's operations (spec/70_reset_and_hazards.md sections 2 and 4): power-on, clear-memory, and who can clear the
fault latch (R200, R177) or set the run latch (R206). -/

namespace Sys2Proof.Machine

/-- What a host's access to cells can do to the state: latch a fault, or change the memory (R203, R208, R209). -/
def FaultsOrSetsMem (s t : State) : Prop := (∃ f, t = raiseFault f s) ∨ ∃ m, t = s.setMem m

theorem FaultsOrSetsMem.run_eq {s t : State} (h : FaultsOrSetsMem s t) : t.run = s.run := by
  rcases h with ⟨f, rfl⟩ | ⟨m, rfl⟩
  · exact raiseFault_run f s
  · exact State.setMem_run s m

theorem FaultsOrSetsMem.keeps_fault {s t : State} (h : FaultsOrSetsMem s t) (hs : s.fault ≠ none) :
    t.fault ≠ none := by
  rcases h with ⟨f, rfl⟩ | ⟨m, rfl⟩
  · exact Option.some_ne_none f
  · exact hs

theorem hostLoadProgram_faults_or_sets_mem {p : List (Int × Int)} {s t : State}
    (h : hostLoadProgram p s = .next t) : FaultsOrSetsMem s t := by
  rcases hostLoadProgram_cases h with ⟨a, rfl⟩ | ⟨-, rfl⟩
  · exact .inl ⟨_, rfl⟩
  · exact .inr ⟨_, rfl⟩

theorem hostReadCell_faults_or_sets_mem (addr : Int) (s : State) : FaultsOrSetsMem s (hostReadCell addr s).2 :=
  (hostReadCell_keeps_or_faults addr s).symm.imp_right fun hkeep => ⟨s.mem, hkeep⟩

theorem hostWriteCell_faults_or_sets_mem {addr v : Int} {s t : State} (h : hostWriteCell addr v s = .next t) :
    FaultsOrSetsMem s t := by
  rcases hostWriteCell_cases h with hfault | ⟨a, -, -, rfl⟩
  · exact .inl hfault
  · exact .inr ⟨_, rfl⟩

/-- No host operation but construction clears the fault latch: a step and a run do nothing to a faulted engine, and
every other operation keeps the latch or overwrites it with a fault (R177, D24). -/
theorem hostAct_keeps_fault {op : HostOp} {s t : State} (hop : op ≠ .construct) (hs : s.fault ≠ none)
    (h : hostAct op s = .next t) : t.fault ≠ none := by
  cases op with
  | construct => exact absurd rfl hop
  | loadProgram p => exact (hostLoadProgram_faults_or_sets_mem h).keeps_fault hs
  | readCell addr => cases h; exact (hostReadCell_faults_or_sets_mem addr s).keeps_fault hs
  | writeCell addr v => exact (hostWriteCell_faults_or_sets_mem h).keeps_fault hs
  | step => cases (step_of_faulted hs).symm.trans h; exact hs
  | run n => cases (runStopsAtItsEnd.1 n s (.inr hs)).symm.trans h; exact hs
  | _ => cases h; exact hs

/-- A step never sets the run latch (R98). -/
theorem step_keeps_run_clear {s t : State} (hs : s.run = false) (h : step s = .next t) : t.run = false := by
  rcases step_faults_or_executes h with ⟨-, hkeep, -⟩ | ⟨i, -, -, -, rfl⟩
  · exact hkeep.trans hs
  · rw [counted_run, stateAfter_run]
    rcases runAfter_cases i (advance s) with hkeep | ⟨a, -, hclear⟩
    · exact hkeep.trans hs
    · exact hclear

/-- No host operation but setting it sets the run latch (R206). -/
theorem hostAct_keeps_run_clear {op : HostOp} {s t : State} (hop : op ≠ .setRun true) (hs : s.run = false)
    (h : hostAct op s = .next t) : t.run = false := by
  cases op with
  | loadProgram p => exact (hostLoadProgram_faults_or_sets_mem h).run_eq.trans hs
  | readCell addr => cases h; exact (hostReadCell_faults_or_sets_mem addr s).run_eq.trans hs
  | writeCell addr v => exact (hostWriteCell_faults_or_sets_mem h).run_eq.trans hs
  | setRun b =>
    cases h
    cases b with
    | true => exact absurd rfl hop
    | false => rfl
  | step => exact step_keeps_run_clear hs h
  | run n => cases (runStopsAtItsEnd.1 n s (.inl hs)).symm.trans h; exact hs
  | construct | reset => cases h; rfl
  | clearMemory | setTarget | queueCard => cases h; exact hs

/-- The empty memory list reads as the power-on cells (R31, R202). -/
theorem Memory.read_nil_eq_powerOn (a : Nat) :
    Memory.read [] a = if a = 0 then 1 else if a = 99 then 800 else 0 :=
  (Memory.read_nil a).trans (blankCell_eq a)

/-- Settles O51: the power-on memory lists nothing, and a faulted engine stays faulted under every
operation but construction. -/
theorem constructGivesThePowerOnState : Obligations.ConstructGivesThePowerOnState := by
  refine ⟨fun _ => rfl, fun a _ => Memory.read_nil_eq_powerOn a, rfl, rfl, rfl, rfl, rfl, rfl, rfl, rfl,
    fun op s t hs h ht => ?_⟩
  by_contra hop
  exact hostAct_keeps_fault hop hs h ht

/-- Settles O56: a run tests the latch first, and every operation but setting the latch keeps it clear. -/
theorem onlyTheHostSetsTheRunLatch : Obligations.OnlyTheHostSetsTheRunLatch := by
  refine ⟨fun _ _ => rfl, fun n s => runStopsAtItsEnd.1 n _ (.inl rfl), fun op s t hs h ht => ?_⟩
  by_contra hop
  exact absurd ht (Bool.eq_false_iff.1 (hostAct_keeps_run_clear hop hs h))

/-- Settles O53: clear-memory empties the memory list, and reset sets every component but the memory and `fault`. -/
theorem clearMemoryRestoresTheCells : Obligations.ClearMemoryRestoresTheCells :=
  fun s => ⟨s.setMem [], rfl, rfl, fun a _ => Memory.read_nil_eq_powerOn a, rfl, hostReset s, rfl, rfl⟩

end Sys2Proof.Machine
end

section
/-! The words the decoder rejects (spec/30_encoding.md R77) and the words the spec spells out. -/

namespace Sys2Proof

/-- A word whose quotient has no handler is rejected before its address is looked at (R174). -/
theorem decode_of_opcode_outside {w : Int} (h : opcodeOf w < 0 ∨ 10 ≤ opcodeOf w) :
    decode w = .error (.undecodedOpcode w) := if_pos h

/-- A word with opcode 0 and a negative address is rejected for its address (D4). -/
theorem decode_of_negative_address {w : Int} (hop : opcodeOf w = 0) (haddr : addressOf w < 0) :
    decode w = .error (.negativeAddress (addressOf w)) := by
  rw [decode, hop, if_neg (by decide), if_pos haddr]

/-- A word is a hundred times its opcode plus its address, which is smaller than a hundred in magnitude (R71). -/
theorem word_eq_opcode_address (w : Int) :
    100 * opcodeOf w + addressOf w = w ∧ -100 < addressOf w ∧ addressOf w < 100 :=
  ⟨Int.mul_tdiv_add_tmod w 100, Int.lt_tmod_of_pos w (by decide), Int.tmod_lt_of_pos w (by decide)⟩

/-- Truncation sends a word of -99..-1 to opcode 0, so the word is its own address (D4). -/
theorem opcode_address_of_small_negative {w : Int} (hlo : -99 ≤ w) (hhi : w ≤ -1) :
    opcodeOf w = 0 ∧ addressOf w = w := by
  obtain ⟨hparts, -⟩ := word_eq_opcode_address w
  have hop : opcodeOf w = 0 := by
    obtain ⟨m, rfl⟩ : ∃ m : Int, w = -m := ⟨-w, by omega⟩
    rw [opcodeOf, tdiv, config_opDiv, Int.neg_tdiv, Int.tdiv_eq_zero_of_lt (by omega) (by omega), neg_zero]
  exact ⟨hop, by omega⟩

/-- Settles O7: outside -99..999 the quotient by a hundred is no opcode digit, and in -99..-1 it is 0. -/
theorem otherWordsAreRejected : Obligations.OtherWordsAreRejected := by
  intro w
  refine ⟨fun hw => ?_, fun hlo hhi => ?_⟩
  · obtain ⟨hparts, hlo, hhi⟩ := word_eq_opcode_address w
    exact decode_of_opcode_outside (by omega)
  · obtain ⟨hop, haddr⟩ := opcode_address_of_small_negative hlo hhi
    have hreject := decode_of_negative_address hop (by omega)
    rwa [haddr] at hreject

/-- The two kinds of rejected word, each with its error (R77, D4). -/
theorem decode_error_cases {w : Int} {e : DecodeError} (h : decode w = .error e) :
    ((w ≤ -100 ∨ 1000 ≤ w) ∧ e = .undecodedOpcode w) ∨ (-99 ≤ w ∧ w ≤ -1 ∧ e = .negativeAddress w) := by
  obtain ⟨houtside, hnegative⟩ := otherWordsAreRejected w
  by_cases hout : w ≤ -100 ∨ 1000 ≤ w
  · cases (houtside hout).symm.trans h
    exact .inl ⟨hout, rfl⟩
  · by_cases hneg : w ≤ -1
    · have hlo : -99 ≤ w := by omega
      cases (hnegative hlo hneg).symm.trans h
      exact .inr ⟨hlo, hneg, rfl⟩
    · obtain ⟨i, hi, -⟩ := everyNonNegativeWordIsAnInstruction w (by omega) (by omega)
      cases hi.symm.trans h

/-- The words that decode to INP are those of row 0 (R76). -/
theorem word_of_decode_inp {w : Int} {a : Nat} (h : decode w = .ok (.inp a)) : 0 ≤ w ∧ w ≤ 99 := by
  obtain ⟨hwf, hword, hlo, -⟩ := decodedWordIsItsEncoding w _ h
  have ha : a < 100 := addressOk_iff.1 hwf
  have hword : ((100 * 0 + a : Nat) : Int) = w := hword
  omega

/-- Settles O2: each of the twelve closed words evaluates. -/
theorem specWordsDecode : Obligations.SpecWordsDecode :=
  ⟨rfl, rfl, rfl, rfl, rfl, rfl, rfl, rfl, rfl, rfl, rfl, rfl⟩

end Sys2Proof
end

section
/-! SFT in closed form (spec/43_arithmetic.md R131) and the store-then-load law (spec/42_load_store.md R122). -/

namespace Sys2Proof.Machine

/-! ### SFT -/

/-- On a non-negative accumulator SFT is arithmetic on naturals. -/
theorem shiftDigits_natCast (l r m : Nat) :
    shiftDigits l r (m : Int) = ((m * 10 ^ l % 10000 / 10 ^ r : Nat) : Int) := by
  have hwindow : accWindow (shiftLeft l (m : Int)) = ((m * 10 ^ l % 10000 : Nat) : Int) := by
    rw [shiftLeft_eq, accWindow_eq, tmod]
    exact_mod_cast (Int.ofNat_tmod (m * 10 ^ l) 10000).symm
  rw [shiftDigits, hwindow, shiftRight_nonneg]

/-- SFT shifts the magnitude and keeps the sign, as truncation does (D6). -/
theorem shiftDigits_neg (l r : Nat) (t : Int) : shiftDigits l r (-t) = -shiftDigits l r t := by
  rw [shiftDigits, shiftLeft_eq, neg_mul, ← shiftLeft_eq, accWindow_neg, shiftRight_neg, shiftDigits]

theorem shiftDigits_eq_sign_mul (l r : Nat) (t : Int) :
    shiftDigits l r t = t.sign * ((t.natAbs * 10 ^ l % 10000 / 10 ^ r : Nat) : Int) := by
  have hnat : ∀ m : Nat,
      shiftDigits l r (m : Int) = (m : Int).sign * ((m * 10 ^ l % 10000 / 10 ^ r : Nat) : Int) := by
    intro m
    rw [shiftDigits_natCast]
    cases m with
    | zero => simp
    | succ k => rw [Int.sign_natCast_of_ne_zero k.succ_ne_zero, one_mul]
  obtain ⟨m, rfl | rfl⟩ := Int.eq_nat_or_neg t
  · exact hnat m
  · rw [shiftDigits_neg, hnat, Int.sign_neg, Int.natAbs_neg, Int.natAbs_natCast, neg_mul]

/-- Settles O14: SFT writes `shiftDigits` of the accumulator, which shifts the magnitude. -/
theorem sftShiftsTheMagnitude : Obligations.SftShiftsTheMagnitude := by
  intro l r s
  rw [exec_sft, shiftDigits_eq_sign_mul]
  rfl

/-! ### STO then CLA -/

/-- A list without an entry for the cell has none to forget. -/
theorem Memory.forget_eq_self {m : Memory} {a : Nat} (h : ∀ c ∈ m, c.1 ≠ a) : Memory.forget m a = m := by
  induction m with
  | nil => rfl
  | cons c m ih =>
    obtain ⟨hc, hm⟩ := List.forall_mem_cons.1 h
    rw [Memory.forget, if_neg hc, ih hm]

/-- Forgetting a cell undoes its insertion. -/
theorem Memory.forget_insert {m : Memory} {a : Nat} (v : Int) (h : ∀ c ∈ m, c.1 ≠ a) :
    Memory.forget (Memory.insert m a v) a = m := by
  induction m with
  | nil => simp [Memory.insert, Memory.forget]
  | cons c m ih =>
    obtain ⟨hc, hm⟩ := List.forall_mem_cons.1 h
    rw [Memory.insert]
    split
    · rw [Memory.forget, if_pos rfl, Memory.forget_eq_self h]
    · rw [Memory.forget, if_neg hc, ih hm]

/-- Writing a cell's value again changes nothing; for every list, canonical or not. -/
theorem Memory.write_write_same (m : Memory) (a : Nat) (v : Int) :
    Memory.write (Memory.write m a v) a v = Memory.write m a v := by
  have hno := Memory.forget_no_entry m a
  by_cases hv : v = blankCell a
  · simp only [Memory.write, if_pos hv, Memory.forget_eq_self hno]
  · simp only [Memory.write, if_neg hv, Memory.forget_insert v hno]

/-- Settles O18: the second STO finds its value in the cell and the second CLA finds it in `acc`, both already cut. -/
theorem stoThenClaReproducesTheStoredValue : Obligations.StoThenClaReproducesTheStoredValue := by
  intro a s ha
  have hsto := fun u => (stoStoresThreeDigits a u ha).2.2
  have hcla := fun u => (claLoadsTheCell a u ha).2.1
  refine ⟨_, _, _, hsto s, hcla _, ?_, ?_, hsto _, ?_⟩
  · exact Memory.read_write_same _ _ _
  · simp only [Memory.read_write_same]
  · rw [hcla]
    simp only [Memory.read_write_same, Int.tmod_tmod, Memory.write_write_same]

end Sys2Proof.Machine
end

section
/-! TAC (spec/44_control.md R150) and INP of a queued card (spec/41_io.md R110). -/

namespace Sys2Proof.Machine

/-- Settles O19, by the two values of the latch: a taken TAC is the jump operation. -/
theorem tacBranchesOnTheLatch : Obligations.TacBranchesOnTheLatch := by
  intro a s ha
  by_cases hf : s.flag = true
  · rw [if_pos hf]
    simp [exec, execTac, tacTaken, hf]
  · have htaken : exec (.tac a) s = jump a s := by simp [exec, execTac, tacTaken, hf]
    rw [htaken, jump_eq, if_neg ha.ne, if_neg hf]
    rfl

theorem cardInRange_false_iff {v : Int} : cardInRange v = false ↔ v < -999 ∨ 999 < v := by
  rw [← Bool.not_eq_true, cardInRange_iff]; omega

/-- INP consumes a tail card in range and stores it to the cell its address names (R110). -/
theorem execInp_of_card (a : Nat) {s : State} {cards : List Int} {v : Int} (hdeck : s.inDeck = cards ++ [v])
    (hv : cardInRange v = true) :
    execInp a s = settle (s.setInDeck cards) (storeTo (inpDestination a) v (s.setInDeck cards)) := by
  rw [execInp, if_neg (by simp), takeCard_tail hdeck, if_pos hv]

/-- Settles O23: the guarded address 0 names no cell to store to, every other address names its own. -/
theorem inpStoresTheTailCard : Obligations.InpStoresTheTailCard := by
  intro a s cards v ha hdeck hlo hhi
  refine (execInp_of_card a hdeck (cardInRange_iff.2 ⟨hlo, hhi⟩)).trans ?_
  rw [inpDestination_eq]
  by_cases h0 : a = 0
  · rw [if_pos h0, if_pos h0, storeTo_none, settle_ok]
    rfl
  · rw [if_neg h0, if_neg h0, storeTo_cell ha, settle_ok]
    rfl

/-- INP consumes a tail card out of range and latches its fault in place of the store (R110, R173; D1, D3). -/
theorem execInp_of_bad_card (a : Nat) {s : State} {cards : List Int} {v : Int} (hdeck : s.inDeck = cards ++ [v])
    (hv : cardInRange v = false) :
    execInp a s = .next (raiseFault (.malformedInputValue v) (s.setInDeck cards)) := by
  rw [execInp, if_neg (by simp), takeCard_tail hdeck, if_neg (Bool.eq_false_iff.1 hv)]

/-- Settles O24: the card is gone before its range is tested, and the test comes before the store. -/
theorem inpRejectsACardOutOfRange : Obligations.InpRejectsACardOutOfRange := by
  intro a s cards v _ hdeck hv
  exact execInp_of_bad_card a hdeck (cardInRange_false_iff.2 hv)

end Sys2Proof.Machine
end

section
/-! The faults of a step (spec/60_exceptions.md R170 to R177), and D10's bound over a step. -/

namespace Sys2Proof.Machine

/-- Settles O49: it is the step case of the session's invariant. -/
theorem stepKeepsTheAccumulatorBounded : Obligations.StepKeepsTheAccumulatorBounded :=
  fun _ _ hs hb h => step_keeps_accBounded hs hb h

/-- Settles O34: a step tests the latch first. -/
theorem faultedEngineDoesNotStep : Obligations.FaultedEngineDoesNotStep :=
  fun _ hf => step_of_faulted hf

/-- Settles O33: a fetch faults in the state itself, a rejected word in the advanced state, and a rejected card in the
advanced state without the card. -/
theorem faultingStepLeavesThisState : Obligations.FaultingStepLeavesThisState := by
  intro s hf
  obtain ⟨houtside, hnegative⟩ := otherWordsAreRejected (Memory.read s.mem s.pc)
  refine ⟨fun hpc => step_of_pc_outside hf hpc, fun hpc hw => step_of_rejected hf (by omega) (houtside hw),
    fun hpc hlo hhi => step_of_rejected hf (by omega) (hnegative hlo hhi), ?_⟩
  intro cards v hpc hlo hhi hdeck hv
  obtain ⟨a, hword⟩ : ∃ a : Nat, Memory.read s.mem s.pc = a := ⟨_, (Int.toNat_of_nonneg hlo).symm⟩
  have ha : a < 100 := by omega
  have hd : decode (Memory.read s.mem s.pc) = .ok (.inp a) := hword ▸ (everyOpcodeRowDecodes a ha).1
  have hexec := inpRejectsACardOutOfRange a (advance s) cards v ha hdeck hv
  exact (stepRunsTheDecodedInstruction s _ _ hf hpc hd hexec).trans (by rw [if_neg (by simp)]; rfl)

/-- A card the reader rejects is a tail card out of range (R110, R173). -/
theorem cardRead_error_tail {d : List Int} {f : Fault} (h : cardRead d = .error f) :
    ∃ cards v, d = cards ++ [v] ∧ (v < -999 ∨ 999 < v) ∧ f = .malformedInputValue v := by
  rcases deck_cases d with rfl | ⟨cards, v, rfl⟩
  · cases h
  · cases hv : cardInRange v with
    | true => cases (cardRead_concat hv cards).symm.trans h
    | false =>
      have hbad : cardRead (cards ++ [v]) = .error (.malformedInputValue v) := by simp [cardRead, hv]
      cases hbad.symm.trans h
      exact ⟨cards, v, rfl, cardInRange_false_iff.1 hv, rfl⟩

/-- The one fault a handler raises: INP's, of a tail card out of range (R96, R173). -/
theorem faultAfter_eq_some {i : Instr} {s : State} {f : Fault} (hs : s.fault = none) (h : faultAfter i s = some f) :
    ∃ a cards v, i = .inp a ∧ s.inDeck = cards ++ [v] ∧ (v < -999 ∨ 999 < v) ∧ f = .malformedInputValue v := by
  cases i with
  | inp a =>
    cases hc : cardRead s.inDeck with
    | ok v => simp [faultAfter, hc, hs] at h
    | error g =>
      simp only [faultAfter, hc, Option.some.injEq] at h
      subst h
      obtain ⟨cards, v, hdeck, hv, hg⟩ := cardRead_error_tail hc
      exact ⟨a, cards, v, rfl, hdeck, hv, hg⟩
  | _ => cases hs.symm.trans h

/-- Settles O32: the four cases of a step give the cause of a latched fault, and R176's table the fault of a cause. -/
theorem stepFaultsHaveTheseCauses : Obligations.StepFaultsHaveTheseCauses := by
  intro s t f hf h
  obtain ⟨hfetch, hopcode, haddress, hcard⟩ := faultingStepLeavesThisState s hf
  refine ⟨fun ht => ?_, ?_⟩
  · rcases step_cases h with ⟨hne, -⟩ | ⟨-, hpc, rfl⟩ | ⟨-, hpc, e, hd, rfl⟩ | ⟨-, hpc, i, u, hd, he, rfl⟩
    · exact absurd hf hne
    · exact .inl ⟨hpc, (Option.some.inj ht).symm⟩
    · have hfault : f = decodeFault e := (Option.some.inj ht).symm
      rcases decode_error_cases hd with ⟨hw, rfl⟩ | ⟨hlo, hhi, rfl⟩
      · exact .inr (.inl ⟨by omega, hw, hfault⟩)
      · exact .inr (.inr (.inl ⟨by omega, hlo, hhi, hfault⟩))
    · obtain rfl := exec_inv he (decode_wellFormed hd)
      rw [counted_fault, stateAfter_fault] at ht
      obtain ⟨a, cards, v, rfl, hdeck, hv, hfault⟩ := faultAfter_eq_some (s := advance s) hf ht
      obtain ⟨hlo, hhi⟩ := word_of_decode_inp hd
      exact .inr (.inr (.inr ⟨by omega, hlo, hhi, cards, v, hdeck, hv, hfault⟩))
  · rintro (⟨hpc, rfl⟩ | ⟨hpc, hw, rfl⟩ | ⟨hpc, hlo, hhi, rfl⟩ | ⟨hpc, hlo, hhi, cards, v, hdeck, hv, rfl⟩)
    · cases (hfetch hpc).symm.trans h; rfl
    · cases (hopcode hpc hw).symm.trans h; rfl
    · cases (haddress hpc hlo hhi).symm.trans h; rfl
    · cases (hcard cards v hpc hlo hhi hdeck hv).symm.trans h; rfl

end Sys2Proof.Machine
end

section
/-! The host's loads and cell accesses (spec/70_reset_and_hazards.md R203, R208, R209), reset, set target and queue card
(R201, R205, R207). -/

namespace Sys2Proof.Machine

/-- Settles O52: reset sets the seven components other than the memory and the fault latch to their power-on values. -/
theorem resetKeepsTheMemory : Obligations.ResetKeepsTheMemory := fun _ => rfl

/-- Settles O57: each of the two operations is one component's update. -/
theorem setTargetAndQueueCard : Obligations.SetTargetAndQueueCard := ⟨fun _ _ => rfl, fun _ _ => rfl⟩

/-! ### Load program -/

theorem cellInRange_false_iff {v : Int} : cellInRange v = false ↔ v < -999 ∨ 999 < v := by
  rw [← Bool.not_eq_true, cellInRange_iff]; omega

/-- A load of a mapping with an address that names no cell latches the least one (D14). -/
theorem hostLoadProgram_of_bad_address {p : List (Int × Int)} {a : Int} (hd : (p.map Prod.fst).Nodup)
    (ha : leastBadAddress p = some a) (s : State) :
    hostLoadProgram p s = .next (raiseFault (.addressOutOfRange a) s) := by
  simp only [hostLoadProgram, firstRepeated_of_nodup hd, ha]

/-- A load of a mapping onto cells with a value no cell can hold is refused (D9). -/
theorem hostLoadProgram_of_bad_value {p : List (Int × Int)} {v : Int} (hd : (p.map Prod.fst).Nodup)
    (ha : leastBadAddress p = none) (hv : firstBadValue p = some v) (s : State) :
    hostLoadProgram p s = .refused (.valueOutOfRange v) := by
  simp only [hostLoadProgram, firstRepeated_of_nodup hd, ha, hv]

/-- The least bad address of a mapping, from what makes it so. -/
theorem leastBadAddress_eq_some {p : List (Int × Int)} {a : Int} (hmem : a ∈ p.map Prod.fst)
    (hbad : addrInRange a = false) (hleast : ∀ b ∈ p.map Prod.fst, addrInRange b = false → a ≤ b) :
    leastBadAddress p = some a := by
  obtain ⟨c, hc, rfl⟩ := List.mem_map.1 hmem
  cases hp : leastBadAddress p with
  | none => simp [leastBadAddress_none.1 hp c hc] at hbad
  | some x =>
    obtain ⟨⟨d, hd, rfl⟩, hx, hmin⟩ := leastBadAddress_some hp
    rw [le_antisymm (hmin c hc hbad) (hleast _ (List.mem_map_of_mem hd) hx)]

/-- A mapping with a value no cell can hold has a first one. -/
theorem firstBadValue_of_mem {p : List (Int × Int)} {v : Int} (hmem : v ∈ p.map Prod.snd)
    (hbad : cellInRange v = false) :
    ∃ w ∈ p.map Prod.snd, cellInRange w = false ∧ firstBadValue p = some w := by
  obtain ⟨c, hc, rfl⟩ := List.mem_map.1 hmem
  cases hp : firstBadValue p with
  | none => simp [firstBadValue_none.1 hp c hc] at hbad
  | some w =>
    obtain ⟨d, hd, rfl, hw⟩ := firstBadValue_some hp
    exact ⟨_, List.mem_map_of_mem hd, hw, rfl⟩

/-- Settles O54, by the load's three answers: the addresses are tested before the values, and both before any write. -/
theorem loadProgramWritesAllOrNothing : Obligations.LoadProgramWritesAllOrNothing := by
  intro p s hd
  refine ⟨fun a hmem hbad hleast => ?_, fun haddr hvalue => ?_, fun hp => ?_⟩
  · have ha : leastBadAddress p = some a := leastBadAddress_eq_some hmem (addrInRange_false_iff.2 hbad)
      fun b hb hbbad => hleast b hb (addrInRange_false_iff.1 hbbad)
    exact hostLoadProgram_of_bad_address hd ha s
  · obtain ⟨v, hmem, hbad⟩ := hvalue
    have ha : leastBadAddress p = none :=
      leastBadAddress_none.2 fun c hc => addrInRange_iff.2 (haddr c.1 (List.mem_map_of_mem hc))
    obtain ⟨w, hw, hwbad, hfirst⟩ := firstBadValue_of_mem hmem (cellInRange_false_iff.2 hbad)
    exact ⟨w, hw, cellInRange_false_iff.1 hwbad, hostLoadProgram_of_bad_value hd ha hfirst s⟩
  · have hcells : ∀ c ∈ p, addrInRange c.1 = true ∧ cellInRange c.2 = true := by
      intro c hc
      obtain ⟨halo, hahi, hvlo, hvhi⟩ := hp c hc
      exact ⟨addrInRange_iff.2 ⟨halo, hahi⟩, cellInRange_iff.2 ⟨hvlo, hvhi⟩⟩
    have haddr : ∀ c ∈ p, addrInRange c.1 = true := fun c hc => (hcells c hc).1
    exact ⟨_, hostLoadProgram_of_isProgram ⟨hd, hcells⟩ s, rfl, fun c hc => writeCells_read hd haddr hc,
      fun b hb => writeCells_read_other haddr hb⟩

/-! ### One cell -/

/-- A cell write is the load of its one-entry mapping: both test the address first and the value second (R209). -/
theorem hostWriteCell_eq_load (addr v : Int) (s : State) :
    hostWriteCell addr v s = hostLoadProgram [(addr, v)] s := by
  have hd : ([(addr, v)].map Prod.fst).Nodup := List.nodup_singleton addr
  cases ha : addrInRange addr with
  | false =>
    rw [hostLoadProgram_of_bad_address (a := addr) hd (by simp [leastBadAddress, ha]), hostWriteCell,
      memWrite_outside (addrInRange_false_iff.1 ha)]
  | true =>
    have hleast : leastBadAddress [(addr, v)] = none := by simp [leastBadAddress, ha]
    cases hv : cellInRange v with
    | false =>
      rw [hostLoadProgram_of_bad_value (v := v) hd hleast (by simp [firstBadValue, hv])]
      simp [hostWriteCell, memWrite, ha, hv]
    | true =>
      rw [hostLoadProgram_of_isProgram ⟨hd, by simp [ha, hv]⟩]
      simp [hostWriteCell, memWrite, ha, hv, writeCells]

/-- Settles O55, by MemRead's two answers and the write as a load. -/
theorem cellAccessByTheHost : Obligations.CellAccessByTheHost := by
  refine ⟨fun a s ha => ?_, fun addr s hout => ?_, hostWriteCell_eq_load⟩
  · rw [hostReadCell, memRead_cell ha]
  · rw [hostReadCell, memRead_outside hout]
    rfl

end Sys2Proof.Machine
end
